-- ==== Sys2Proof/Word.lean ====
section
/-! DEFINITION. The bit-vector types of the instruction stream (00_scope.md R8: byte = 8 bits, literals of 8 and 16 bits,
selectors of 3 bits). -/

namespace Sys2Proof

/-- A byte of the input buffer, bit 7 the most significant (R8). -/
abbrev Byte := BitVec 8

/-- A 16-bit literal: a direct address, a 16-bit displacement or a 16-bit immediate (R35). -/
abbrev Word := BitVec 16

/-- A 3-bit selector, `reg` or `rm` (R9). -/
abbrev Sel := BitVec 3

end Sys2Proof
end

