-- ==== Sys2Proof/Syntax.lean ====
section
/-! DEFINITION. The decoded instructions: one constructor per row of opcode_table.json, each owning the fields its row leaves
free (R24, R68). The direction bit is pinned by the constructor, `mod` too. -/

namespace Sys2Proof

/-- An instruction of the block. `w` is the width bit, `reg` and `rm` the selectors, literals are the raw bits as fetched. -/
inductive Instr where
  /-- R100: `1000100w 11rrrmmm`, register from register, `d = 0`. -/
  | movRegToRm (w : Bool) (reg rm : Sel)
  /-- R101: `1000101w 11rrrmmm`, register from register, `d = 1`. -/
  | movRmToReg (w : Bool) (reg rm : Sel)
  /-- R104: `1000100w 00rrr110 lo hi`, direct address from register. -/
  | movRegToDirect (w : Bool) (reg : Sel) (addr : Word)
  /-- R105: `1000101w 00rrr110 lo hi`, register from direct address. -/
  | movDirectToReg (w : Bool) (reg : Sel) (addr : Word)
  /-- R102: `1000100w 00rrrmmm`, `mmm` not `110`, memory from register, no displacement. -/
  | movRegToMem (w : Bool) (reg rm : Sel)
  /-- R103: `1000101w 00rrrmmm`, `mmm` not `110`, register from memory, no displacement. -/
  | movMemToReg (w : Bool) (reg rm : Sel)
  /-- R106: `1000100w 01rrrmmm lo`, memory from register, 8-bit displacement. -/
  | movRegToMemDisp8 (w : Bool) (reg rm : Sel) (disp : Byte)
  /-- R107: `1000101w 01rrrmmm lo`, register from memory, 8-bit displacement. -/
  | movMemDisp8ToReg (w : Bool) (reg rm : Sel) (disp : Byte)
  /-- R108: `1000100w 10rrrmmm lo hi`, memory from register, 16-bit displacement. -/
  | movRegToMemDisp16 (w : Bool) (reg rm : Sel) (disp : Word)
  /-- R109: `1000101w 10rrrmmm lo hi`, register from memory, 16-bit displacement. -/
  | movMemDisp16ToReg (w : Bool) (reg rm : Sel) (disp : Word)
  /-- R111: `10110rrr lo`, 8-bit register from immediate. -/
  | movImm8ToReg (reg : Sel) (imm : Byte)
  /-- R112: `10111rrr lo hi`, 16-bit register from immediate. -/
  | movImm16ToReg (reg : Sel) (imm : Word)
  /-- R83: any other first byte, standing alone. -/
  | unsupported (b0 : Byte)
  deriving DecidableEq, Repr

end Sys2Proof
end

