-- ==== Sys2Proof/WellFormed.lean ====
section
/-! DEFINITION. Which values of `Instr` stand for an encoding of the table. The checks are written from the table's own rows
(R64, R68), not from the decoder's tests. -/

namespace Sys2Proof

/-- The 20 first bytes of the two recognised forms, as the ranges of R64. -/
def Byte.recognised (b : Byte) : Bool :=
  (0x88 ≤ b.toNat && b.toNat ≤ 0x8B) || (0xB0 ≤ b.toNat && b.toNat ≤ 0xBF)

/-- The general `mod = 00` rows exclude `rm = 110` (R102, R103; the table's `unless`); the catch-all row holds only the 236
first bytes outside the two forms (R66). Every other field value is legal (R65). -/
def Instr.wf : Instr → Bool
  | .movRegToRm _ _ _ => true
  | .movRmToReg _ _ _ => true
  | .movRegToDirect _ _ _ => true
  | .movDirectToReg _ _ _ => true
  | .movRegToMem _ _ rm => rm != 6#3
  | .movMemToReg _ _ rm => rm != 6#3
  | .movRegToMemDisp8 _ _ _ _ => true
  | .movMemDisp8ToReg _ _ _ _ => true
  | .movRegToMemDisp16 _ _ _ _ => true
  | .movMemDisp16ToReg _ _ _ _ => true
  | .movImm8ToReg _ _ => true
  | .movImm16ToReg _ _ => true
  | .unsupported b0 => !b0.recognised

end Sys2Proof
end

