-- ==== Sys2Proof/Decode.lean ====
section
/-! DEFINITION. The classifier, the field extractor, the decoder of a list of bytes, and the encoder (30_encoding.md). -/

namespace Sys2Proof

/-- What the classifier says of a first byte (R53). -/
inductive Form where
  /-- register/memory to or from register -/
  | rm
  /-- immediate to register -/
  | ri
  /-- neither pattern -/
  | unsupported
  deriving DecidableEq, Repr

/-- R52, R53: the two patterns `100010xx` and `1011xxxx`, tested on the first byte alone. -/
def classify (b0 : Byte) : Form :=
  if b0.extractLsb' 2 6 = 0b100010#6 then .rm
  else if b0.extractLsb' 4 4 = 0b1011#4 then .ri
  else .unsupported

/-- R54: the direction bit of an RM first byte, bit 1. -/
def dBit (b0 : Byte) : Bool := b0.getLsbD 1

/-- R54: the width bit of an RM first byte, bit 0. -/
def wBitRm (b0 : Byte) : Bool := b0.getLsbD 0

/-- R54: the width bit of an RI first byte, bit 3. -/
def wBitRi (b0 : Byte) : Bool := b0.getLsbD 3

/-- R54: the register selector of an RI first byte, bits 2 to 0. -/
def regFieldRi (b0 : Byte) : Sel := b0.extractLsb' 0 3

/-- R55: `mod`, bits 7 and 6 of the ModRM byte. -/
def modField (b1 : Byte) : BitVec 2 := b1.extractLsb' 6 2

/-- R55: `reg`, bits 5 to 3 of the ModRM byte. -/
def regField (b1 : Byte) : Sel := b1.extractLsb' 3 3

/-- R55: `rm`, bits 2 to 0 of the ModRM byte. -/
def rmField (b1 : Byte) : Sel := b1.extractLsb' 0 3

/-- R35: a 16-bit literal, the byte at the lower offset the least significant. -/
def littleEndian (lo hi : Byte) : Word := hi ++ lo

/-- R57: the number of bytes after the ModRM byte. -/
def trail (md : BitVec 2) (rm : Sel) : Nat :=
  if md = 0b11#2 then 0
  else if md = 0b00#2 ∧ rm = 0b110#3 then 2
  else if md = 0b00#2 then 0
  else if md = 0b01#2 then 1
  else 2

/-- R63: the length in bytes read off the first one or two bytes; none for an unsupported first byte (R66). -/
def lengthOf (b0 b1 : Byte) : Option Nat :=
  match classify b0 with
  | .rm => some (2 + trail (modField b1) (rmField b1))
  | .ri => some (if wBitRi b0 then 3 else 2)
  | .unsupported => none

/-- R63: the length of a decoded instruction; 1 for an unsupported byte, the advance of policy `Skip` (R83). -/
def instrLength : Instr → Nat
  | .movRegToRm _ _ _ => 2
  | .movRmToReg _ _ _ => 2
  | .movRegToDirect _ _ _ => 4
  | .movDirectToReg _ _ _ => 4
  | .movRegToMem _ _ _ => 2
  | .movMemToReg _ _ _ => 2
  | .movRegToMemDisp8 _ _ _ _ => 3
  | .movMemDisp8ToReg _ _ _ _ => 3
  | .movRegToMemDisp16 _ _ _ _ => 4
  | .movMemDisp16ToReg _ _ _ _ => 4
  | .movImm8ToReg _ _ => 2
  | .movImm16ToReg _ _ => 3
  | .unsupported _ => 1

/-- The decoder's answer on the bytes from an instruction boundary to the end of the buffer. -/
inductive Decoded where
  /-- an instruction and the bytes after it -/
  | instr (i : Instr) (rest : List Byte)
  /-- rejected by name: a recognised form with too few bytes (R140) -/
  | truncated
  /-- rejected by name: no byte at all, the boundary is the end of the buffer (R84) -/
  | exhausted
  deriving DecidableEq, Repr

/-- R90, R91: format RM after its first two bytes; the direct-address test comes before the general `mod = 00` case. -/
def decodeRm (b0 b1 : Byte) (rest : List Byte) : Decoded :=
  let w := wBitRm b0
  let reg := regField b1
  let rm := rmField b1
  if modField b1 = 0b11#2 then
    .instr (if dBit b0 then .movRmToReg w reg rm else .movRegToRm w reg rm) rest
  else if modField b1 = 0b00#2 ∧ rm = 0b110#3 then
    match rest with
    | lo :: hi :: rest' =>
      .instr (if dBit b0 then .movDirectToReg w reg (littleEndian lo hi) else .movRegToDirect w reg (littleEndian lo hi)) rest'
    | _ => .truncated
  else if modField b1 = 0b00#2 then
    .instr (if dBit b0 then .movMemToReg w reg rm else .movRegToMem w reg rm) rest
  else if modField b1 = 0b01#2 then
    match rest with
    | lo :: rest' => .instr (if dBit b0 then .movMemDisp8ToReg w reg rm lo else .movRegToMemDisp8 w reg rm lo) rest'
    | [] => .truncated
  else
    match rest with
    | lo :: hi :: rest' =>
      .instr (if dBit b0 then .movMemDisp16ToReg w reg rm (littleEndian lo hi)
        else .movRegToMemDisp16 w reg rm (littleEndian lo hi)) rest'
    | _ => .truncated

/-- R110: format RI after its first byte. -/
def decodeRi (b0 : Byte) (rest : List Byte) : Decoded :=
  if wBitRi b0 then
    match rest with
    | lo :: hi :: rest' => .instr (.movImm16ToReg (regFieldRi b0) (littleEndian lo hi)) rest'
    | _ => .truncated
  else
    match rest with
    | lo :: rest' => .instr (.movImm8ToReg (regFieldRi b0) lo) rest'
    | [] => .truncated

/-- R80, R82, R144: dispatch on the first byte alone; total on any bytes. -/
def decode : List Byte → Decoded
  | [] => .exhausted
  | b0 :: rest =>
    match classify b0 with
    | .unsupported => .instr (.unsupported b0) rest
    | .ri => decodeRi b0 rest
    | .rm =>
      match rest with
      | b1 :: rest' => decodeRm b0 b1 rest'
      | [] => .truncated

/-! The encoder, from the bit pictures of R51 and R56. -/

/-- R51: `100010dw`. -/
def rmFirstByte (d w : Bool) : Byte := (0b100010#6 ++ BitVec.ofBool d) ++ BitVec.ofBool w

/-- R51, R55: `mmrrrRRR`. -/
def modRmByte (md : BitVec 2) (reg rm : Sel) : Byte := (md ++ reg) ++ rm

/-- R56: `1011wrrr`. -/
def riFirstByte (w : Bool) (reg : Sel) : Byte := (0b1011#4 ++ BitVec.ofBool w) ++ reg

/-- R35: the two bytes of a 16-bit literal in buffer order. -/
def wordBytes (v : Word) : List Byte := [v.extractLsb' 0 8, v.extractLsb' 8 8]

/-- The bytes of an instruction in buffer order (R51, R56). -/
def encode : Instr → List Byte
  | .movRegToRm w reg rm => [rmFirstByte false w, modRmByte 0b11#2 reg rm]
  | .movRmToReg w reg rm => [rmFirstByte true w, modRmByte 0b11#2 reg rm]
  | .movRegToDirect w reg addr => rmFirstByte false w :: modRmByte 0b00#2 reg 0b110#3 :: wordBytes addr
  | .movDirectToReg w reg addr => rmFirstByte true w :: modRmByte 0b00#2 reg 0b110#3 :: wordBytes addr
  | .movRegToMem w reg rm => [rmFirstByte false w, modRmByte 0b00#2 reg rm]
  | .movMemToReg w reg rm => [rmFirstByte true w, modRmByte 0b00#2 reg rm]
  | .movRegToMemDisp8 w reg rm disp => [rmFirstByte false w, modRmByte 0b01#2 reg rm, disp]
  | .movMemDisp8ToReg w reg rm disp => [rmFirstByte true w, modRmByte 0b01#2 reg rm, disp]
  | .movRegToMemDisp16 w reg rm disp => rmFirstByte false w :: modRmByte 0b10#2 reg rm :: wordBytes disp
  | .movMemDisp16ToReg w reg rm disp => rmFirstByte true w :: modRmByte 0b10#2 reg rm :: wordBytes disp
  | .movImm8ToReg reg imm => [riFirstByte false reg, imm]
  | .movImm16ToReg reg imm => riFirstByte true reg :: wordBytes imm
  | .unsupported b0 => [b0]

/-! The opcode table's own bit numbering, for the pipeline's probe (log entry 8). -/

/-- The first four bytes in buffer order of the instruction a table row numbers as `w` on `nbits` bits. R68: a row that
matches two bytes (the RM rows) numbers them `V = 256 * b0 + b1`; a row that matches one byte numbers `b0`. Bits above the
matched ones count on from there; bits above `nbits` are 0. -/
def tableBytes (nbits w : Nat) : List Byte :=
  let v : Nat := w % 2 ^ nbits
  let byteAt := fun k : Nat => BitVec.ofNat 8 (v / 256 ^ k)
  if classify (byteAt 1) = .rm then [byteAt 1, byteAt 0, byteAt 2, byteAt 3]
  else [byteAt 0, byteAt 1, byteAt 2, byteAt 3]

/-- The instruction the decoder reads from a table word, none where it rejects. -/
def decodeTableWord (nbits w : Nat) : Option Instr :=
  match decode (tableBytes nbits w) with
  | .instr i _ => some i
  | .truncated => none
  | .exhausted => none

end Sys2Proof
end

