-- ==== Sys2Proof/Config.lean ====
section
/-! DEFINITION. The three configuration inputs the host chooses before a run (10_state.md R15). The block supplies no default;
every statement quantifies over all eight configurations. -/

namespace Sys2Proof

/-- `CFG.UNSUPPORTED_POLICY` (R15, R83): what a first byte matching neither form does. -/
inductive Policy where
  /-- the byte raises `UnsupportedOpcode` and the run ends -/
  | abort
  /-- the byte is recorded by a marker and skipped -/
  | skip
  deriving DecidableEq, Repr

/-- `CFG` (R15): fixed by the host before a run, read-only to the block. -/
structure Cfg where
  /-- `CFG.SIGNED_LITERALS`: read by literal interpretation (R61) -/
  signedLiterals : Bool
  /-- `CFG.UNSUPPORTED_POLICY`: read by the unsupported arm (R83) -/
  policy : Policy
  /-- `CFG.ELIDE_ZERO_DISP`: read by the renderer (R124) -/
  elideZeroDisp : Bool
  deriving DecidableEq, Repr

/-- DESIGN CHOICE (unsafe, log entry 2): the configuration `State.reset` shows, the one 95_test_vectors.md assumes where a row
says nothing. The spec gives no reset value (R15), and no statement rests on this one. -/
def Cfg.atReset : Cfg := { signedLiterals := true, policy := .abort, elideZeroDisp := false }

end Sys2Proof
end

