-- ==== Sys2Proof/Machine/State.lean ====
section
/-! DEFINITION. The state of the block (10_state.md R10 to R29), the records it emits, and the reasons the model's step can
stop. -/

namespace Sys2Proof.Machine

/-- The sixteen entries of the register-name table (R16). They are names the block outputs, no registers of the block (R18). -/
inductive RegName where
  | al | cl | dl | bl | ah | ch | dh | bh
  | ax | cx | dx | bx | sp | bp | si | di
  deriving DecidableEq, Repr

/-- R21: an operand of a decoded instruction. -/
inductive Operand where
  /-- a register by its table name -/
  | register (name : RegName)
  /-- a 16-bit absolute address, always unsigned (R60) -/
  | directAddress (a : Word)
  /-- a base equation by its selector and an optional interpreted displacement; symbolic, never a number (R99) -/
  | effectiveAddress (rm : Sel) (disp : Option Int)
  /-- an interpreted immediate -/
  | immediate (v : Int)
  deriving DecidableEq, Repr

/-- R23: an entry of `OUT`. -/
inductive Entry where
  /-- R22: the record `Mov(dst, src)`; the mnemonic is always the move mnemonic -/
  | mov (dst src : Operand)
  /-- the marker of an unsupported byte, with its buffer offset -/
  | unsupported (off : Nat)
  deriving DecidableEq, Repr

/-- R142: the two failures. -/
inductive FailureKind where
  /-- R140: fewer bytes remain than the matched form requires -/
  | truncatedInput
  /-- R141: a first byte matches neither pattern, under policy `Abort` -/
  | unsupportedOpcode
  deriving DecidableEq, Repr

/-- R14: `STATUS`. -/
inductive Status where
  /-- the block may take a step -/
  | running
  /-- input exhausted at an instruction boundary -/
  | done
  /-- a decode failure, with the offset of the failing instruction's first byte -/
  | failed (kind : FailureKind) (off : Nat)
  deriving DecidableEq, Repr

/-- The input space (R30) as offset and byte pairs, offsets strictly rising, no byte 0 listed: an unlisted offset below `LEN`
holds byte 0 (log entry 1). -/
abbrev Memory := List Host.Cell

/-- The state of the block with the host's parameters of the run (R10). -/
structure State where
  /-- `POS`, the cursor: an offset into the buffer (R11) -/
  pos : Nat
  /-- `OUT`, oldest entry first (R13) -/
  out : List Entry
  /-- `STATUS` (R14) -/
  status : Status
  /-- `BUF` (R30), read-only to the block -/
  mem : Memory
  /-- `LEN`, the number of bytes of `BUF` (R7) -/
  len : Nat
  /-- `CFG` (R15), read-only to the block -/
  cfg : Cfg
  deriving DecidableEq, Repr

/-- The state right after reset (R28, R160): `POS` 0 (the spec's D3, log entry 17), `OUT` empty, `STATUS` Running. DESIGN CHOICE (unsafe, log entries 2 and
3): the host has presented an empty buffer and `Cfg.atReset`; a run on given inputs starts at `State.start`. -/
def State.reset : State :=
  { pos := 0, out := [], status := .running, mem := [], len := 0, cfg := Cfg.atReset }

/-- Why the machine has no next state. Neither is a failure of the spec: those are next states (R145). -/
inductive Fault where
  /-- Raised by `step` when `STATUS` is Done or Failed: no step is enabled (R85). Safe: the state is final (log entry 4). -/
  | noStepEnabled
  /-- Raised by `step` when `POS > LEN`, where a fetch would read an offset that does not exist (R33). Safe: R11 excludes such
  states and no run reaches one (log entry 5). -/
  | outsideBuffer
  deriving DecidableEq, Repr

/-- Why an instruction has no meaning. -/
inductive Refusal where
  /-- Raised by an arm of `exec` whose instruction has no meaning yet. Safe: nothing is claimed of it. No arm uses it. -/
  | notModelled (mnemonic : String)
  deriving DecidableEq, Repr

/-- The outcome of a step of this machine. -/
abbrev Result := Host.Outcome State Fault Refusal

end Sys2Proof.Machine
end

