-- ==== Sys2Proof/Machine/Ops.lean ====
section
/-! DEFINITION. The named operations on the buffer, the cursor, the output and the status: bounds-checked reads, `Emit`,
`raise` (the block's one exception entry), the clean end, reset, and the fetch. -/

namespace Sys2Proof.Machine

/-! The cell list behind `BUF`. -/

/-- The byte at an offset; an unlisted offset holds 0 (log entry 1). -/
def Memory.read : Memory → Nat → Byte
  | [], _ => 0#8
  | (b, x) :: m, a => if a = b then x else Memory.read m a

/-- Replaces one byte and keeps the canonical form. The block never writes (R31); the host's placement does. -/
def Memory.write : Memory → Nat → Byte → Memory
  | [], a, v => if v = 0#8 then [] else [(a, v)]
  | (b, x) :: m, a, v =>
    if a < b then (if v = 0#8 then (b, x) :: m else (a, v) :: (b, x) :: m)
    else if a = b then (if v = 0#8 then m else (b, v) :: m)
    else (b, x) :: Memory.write m a v

/-- Every listed offset is at least `lo`, offsets rise strictly, no byte 0 is listed. -/
def Memory.wfFrom : Nat → Memory → Bool
  | _, [] => true
  | lo, (a, v) :: m => decide (lo ≤ a) && v != 0#8 && Memory.wfFrom (a + 1) m

/-- The canonical form of a cell list. -/
def Memory.wf (m : Memory) : Bool := Memory.wfFrom 0 m

/-- The cells of a byte sequence placed at offset `k`. -/
def Memory.ofBytesFrom : Nat → List Byte → Memory
  | _, [] => []
  | k, b :: bs => if b = 0#8 then Memory.ofBytesFrom (k + 1) bs else (k, b) :: Memory.ofBytesFrom (k + 1) bs

/-- Replaces the bytes at `a`, `a + 1`, ... -/
def Memory.writeBytes : Memory → Nat → List Byte → Memory
  | m, _, [] => m
  | m, a, b :: bs => Memory.writeBytes (Memory.write m a b) (a + 1) bs

/-- The `n` bytes from offset `a` on. -/
def Memory.readBytes (m : Memory) : Nat → Nat → List Byte
  | _, 0 => []
  | a, n + 1 => Memory.read m a :: Memory.readBytes m (a + 1) n

/-! Reads of the buffer. -/

/-- `BUF[a]` (R30): none where the offset does not exist. -/
def State.readByte? (s : State) (a : Nat) : Option Byte :=
  if a < s.len then some (Memory.read s.mem a) else none

/-- R63: no instruction is longer than four bytes. -/
def maxLength : Nat := 4

/-- The bytes from `POS` to the end of the buffer, at most `maxLength` of them, in ascending order (R33, R35). -/
def State.window (s : State) : List Byte :=
  Memory.readBytes s.mem s.pos (min maxLength (s.len - s.pos))

/-- The decoder at the cursor: one instruction, or why there is none. -/
def State.fetch (s : State) : Decoded := decode s.window

/-! Effects of a step. -/

/-- R34 and R12: `Emit` one entry, then `POS` moves past the `n` bytes it accounts for. -/
def State.emit (s : State) (e : Entry) (n : Nat) : State :=
  { s with out := s.out ++ [e], pos := s.pos + n }

/-- R145: `raise K(START)`. `STATUS` takes the kind and the offset of the instruction's first byte; `POS` stays at that offset
and `OUT` keeps what earlier steps emitted. There is no handler and no return (R146). -/
def State.fail (s : State) (k : FailureKind) : State :=
  { s with status := .failed k s.pos }

/-- R84: the clean end, at a boundary equal to `LEN`. -/
def State.finish (s : State) : State :=
  { s with status := .done }

/-- R90, R110: the end of a move's arm: `TruncatedInput` when the instruction's `n` bytes are not all present, else its record
is emitted. -/
def State.emitMov (s : State) (n : Nat) (dst src : Operand) : Result :=
  if s.pos + n ≤ s.len then .next (s.emit (.mov dst src) n) else .next (s.fail .truncatedInput)

/-! What the host does to the block. -/

/-- R160: reset, the start of a decode call on the buffer and configuration the host presents. The only way into Running and
the only way out of Done and Failed. -/
def State.start (bytes : List Byte) (cfg : Cfg) : State :=
  { pos := 0, out := [], status := .running, mem := Memory.ofBytesFrom 0 bytes, len := bytes.length, cfg := cfg }

/-- Places bytes at the cursor, makes the buffer reach past them, and lets the block run: for `State.withFetchWord` only. -/
def State.place (s : State) (bytes : List Byte) : State :=
  { s with mem := Memory.writeBytes s.mem s.pos bytes, len := max s.len (s.pos + bytes.length), status := .running }

end Sys2Proof.Machine
end

