-- ==== Sys2Proof/Machine/Operands.lean ====
section
/-! DEFINITION. Operand forms: the register-name table, the interpretation of literals, and the operands the addressing-mode
resolver (R91) gives; which of them an encoding gives is the decoder's choice of constructor. -/

namespace Sys2Proof.Machine

/-- R16: `REGNAME[w][sel]`. -/
def regName (w : Bool) (sel : Sel) : RegName :=
  match w, sel.toNat with
  | false, 0 => .al
  | false, 1 => .cl
  | false, 2 => .dl
  | false, 3 => .bl
  | false, 4 => .ah
  | false, 5 => .ch
  | false, 6 => .dh
  | false, _ => .bh
  | true, 0 => .ax
  | true, 1 => .cx
  | true, 2 => .dx
  | true, 3 => .bx
  | true, 4 => .sp
  | true, 5 => .bp
  | true, 6 => .si
  | true, _ => .di

/-- R96, R98: the register operand `Register(REGNAME[w][sel])`. -/
def regOperand (w : Bool) (sel : Sel) : Operand := .register (regName w sel)

/-- R61: the value of an `n`-bit displacement or immediate under `CFG.SIGNED_LITERALS`; the same option governs 8-bit
literals (the spec's D6, log entry 6). -/
def interp (cfg : Cfg) {n : Nat} (raw : BitVec n) : Int :=
  if cfg.signedLiterals then raw.toInt else (raw.toNat : Int)

/-- R92: the operand of `mod = 00`, `rm` not `110`: a base equation alone. -/
def memOperand (rm : Sel) : Operand := .effectiveAddress rm none

/-- R94, R95: a base equation and a displacement of `n` bits. -/
def dispOperand (cfg : Cfg) (rm : Sel) {n : Nat} (disp : BitVec n) : Operand :=
  .effectiveAddress rm (some (interp cfg disp))

/-- R62: an immediate of `n` bits. -/
def immOperand (cfg : Cfg) {n : Nat} (imm : BitVec n) : Operand := .immediate (interp cfg imm)

end Sys2Proof.Machine
end

