-- ==== Sys2Proof/Machine/MovImmReg.lean ====
section
/-! DEFINITION. The two immediate moves (42_mov_imm_reg.md R111, R112): destination always a register, source always the
immediate (R113). -/

namespace Sys2Proof.Machine

/-- R111: 8-bit register from 8-bit immediate. -/
def execMovImm8ToReg (reg : Sel) (imm : Byte) (s : State) : Result :=
  s.emitMov 2 (regOperand false reg) (immOperand s.cfg imm)

/-- R112: 16-bit register from 16-bit immediate. -/
def execMovImm16ToReg (reg : Sel) (imm : Word) (s : State) : Result :=
  s.emitMov 3 (regOperand true reg) (immOperand s.cfg imm)

end Sys2Proof.Machine
end

