-- ==== Sys2Proof/Machine/MovRmReg.lean ====
section
/-! DEFINITION. The ten register/memory moves (41_mov_rm_reg.md R100 to R109). Each emits its record and advances, or raises
`TruncatedInput` when its bytes are not all present. The first operand of `State.emitMov` is the destination (R97). -/

namespace Sys2Proof.Machine

/-- R100: register from register, the r/m field the destination. -/
def execMovRegToRm (w : Bool) (reg rm : Sel) (s : State) : Result :=
  s.emitMov 2 (regOperand w rm) (regOperand w reg)

/-- R101: register from register, the reg field the destination. -/
def execMovRmToReg (w : Bool) (reg rm : Sel) (s : State) : Result :=
  s.emitMov 2 (regOperand w reg) (regOperand w rm)

/-- R102: memory from register, no displacement. -/
def execMovRegToMem (w : Bool) (reg rm : Sel) (s : State) : Result :=
  s.emitMov 2 (memOperand rm) (regOperand w reg)

/-- R103: register from memory, no displacement. -/
def execMovMemToReg (w : Bool) (reg rm : Sel) (s : State) : Result :=
  s.emitMov 2 (regOperand w reg) (memOperand rm)

/-- R104: direct address from register. -/
def execMovRegToDirect (w : Bool) (reg : Sel) (addr : Word) (s : State) : Result :=
  s.emitMov 4 (.directAddress addr) (regOperand w reg)

/-- R105: register from direct address. -/
def execMovDirectToReg (w : Bool) (reg : Sel) (addr : Word) (s : State) : Result :=
  s.emitMov 4 (regOperand w reg) (.directAddress addr)

/-- R106: memory from register, 8-bit displacement. -/
def execMovRegToMemDisp8 (w : Bool) (reg rm : Sel) (disp : Byte) (s : State) : Result :=
  s.emitMov 3 (dispOperand s.cfg rm disp) (regOperand w reg)

/-- R107: register from memory, 8-bit displacement. -/
def execMovMemDisp8ToReg (w : Bool) (reg rm : Sel) (disp : Byte) (s : State) : Result :=
  s.emitMov 3 (regOperand w reg) (dispOperand s.cfg rm disp)

/-- R108: memory from register, 16-bit displacement. -/
def execMovRegToMemDisp16 (w : Bool) (reg rm : Sel) (disp : Word) (s : State) : Result :=
  s.emitMov 4 (dispOperand s.cfg rm disp) (regOperand w reg)

/-- R109: register from memory, 16-bit displacement. -/
def execMovMemDisp16ToReg (w : Bool) (reg rm : Sel) (disp : Word) (s : State) : Result :=
  s.emitMov 4 (regOperand w reg) (dispOperand s.cfg rm disp)

end Sys2Proof.Machine
end

