-- ==== Sys2Proof/Machine/Unsupported.lean ====
section
/-! DEFINITION. The unsupported arm (40_decode_step.md R83). -/

namespace Sys2Proof.Machine

/-- R83: under `Abort` the failure `UnsupportedOpcode(START)`; under `Skip` the marker `Unsupported(START)` and an advance of
one byte. The byte's value is not recorded (R141). -/
def execUnsupported (_b0 : Byte) (s : State) : Result :=
  match s.cfg.policy with
  | .abort => .next (s.fail .unsupportedOpcode)
  | .skip => .next (s.emit (.unsupported s.pos) 1)

end Sys2Proof.Machine
end

