-- ==== Sys2Proof/Machine/Dispatch.lean ====
section
/-! DEFINITION. One arm per row of the opcode table. -/

namespace Sys2Proof.Machine

def exec (i : Instr) (s : State) : Host.Outcome State Fault Refusal :=
  match i with
  | .movRegToRm w reg rm => Sys2Proof.Machine.execMovRegToRm w reg rm s
  | .movRmToReg w reg rm => Sys2Proof.Machine.execMovRmToReg w reg rm s
  | .movRegToDirect w reg addr => Sys2Proof.Machine.execMovRegToDirect w reg addr s
  | .movDirectToReg w reg addr => Sys2Proof.Machine.execMovDirectToReg w reg addr s
  | .movRegToMem w reg rm => Sys2Proof.Machine.execMovRegToMem w reg rm s
  | .movMemToReg w reg rm => Sys2Proof.Machine.execMovMemToReg w reg rm s
  | .movRegToMemDisp8 w reg rm disp => Sys2Proof.Machine.execMovRegToMemDisp8 w reg rm disp s
  | .movMemDisp8ToReg w reg rm disp => Sys2Proof.Machine.execMovMemDisp8ToReg w reg rm disp s
  | .movRegToMemDisp16 w reg rm disp => Sys2Proof.Machine.execMovRegToMemDisp16 w reg rm disp s
  | .movMemDisp16ToReg w reg rm disp => Sys2Proof.Machine.execMovMemDisp16ToReg w reg rm disp s
  | .movImm8ToReg reg imm => Sys2Proof.Machine.execMovImm8ToReg reg imm s
  | .movImm16ToReg reg imm => Sys2Proof.Machine.execMovImm16ToReg reg imm s
  | .unsupported b0 => Sys2Proof.Machine.execUnsupported b0 s

end Sys2Proof.Machine
end

