-- ==== Sys2Proof/Machine/Step.lean ====
section
/-! DEFINITION. The step relation (40_decode_step.md R80) and the pipeline's placement of one instruction at the cursor. -/

namespace Sys2Proof.Machine

/-- R80: enabled only when `STATUS` is Running (R85, log entry 4). At `POS = LEN` the run ends cleanly (R84); otherwise the
instruction at `POS` is decoded and its arm taken, or `TruncatedInput` is raised. `POS > LEN` is no state of the block (R11,
log entry 5). -/
def step (s : State) : Host.Outcome State Fault Refusal :=
  match s.status with
  | .running =>
    if s.len < s.pos then .fault .outsideBuffer
    else
      match s.fetch with
      | .exhausted => .next s.finish
      | .truncated => .next (s.fail .truncatedInput)
      | .instr i _ => exec i s
  | .done => .fault .noStepEnabled
  | .failed _ _ => .fault .noStepEnabled

/-- The state whose very next step runs the instruction the opcode table numbers as `w` on `nbits` bits (log entry 8): its
bytes, zeros up to the longest instruction, stand at `POS`, `LEN` reaches past them, and `STATUS` is Running. -/
def State.withFetchWord (s : State) (nbits w : Nat) : State :=
  s.place (tableBytes nbits w)

end Sys2Proof.Machine
end

