-- ==== Sys2Proof/Machine/Flags.lean ====
section
/-! DEFINITION. The block has no flags and no condition codes (10_state.md R25): nothing is computed here but the numeric form
of `STATUS` that R14 assigns (the spec's D15, log entry 14). No step uses it. -/

namespace Sys2Proof.Machine

/-- R14: the code of a failure kind. -/
def FailureKind.code : FailureKind → Nat
  | .truncatedInput => 1
  | .unsupportedOpcode => 2

/-- R14: the code of a status. -/
def Status.code : Status → Nat
  | .running => 0
  | .done => 1
  | .failed _ _ => 2

end Sys2Proof.Machine
end

