-- ==== Sys2Proof/Machine/Reference.lean ====
section
/-! DEFINITION. The step as the spec's own pseudocode writes it (R80, R83, R84, R90, R91, R110): over natural numbers and byte
offsets, with no decoded instruction in between. `step` is claimed equal to it; nothing of `step` rests on this file. -/

namespace Sys2Proof.Machine

/-- R8: `MemRead(addr, 1)`, meaningful below `LEN` only. -/
def memRead1 (s : State) (addr : Nat) : Nat := (Memory.read s.mem addr).toNat

/-- R8, R35: `MemRead(addr, 2)`. -/
def memRead2 (s : State) (addr : Nat) : Nat := memRead1 s addr + 256 * memRead1 s (addr + 1)

/-- R8: `b[hi:lo]`. -/
def bitsOf (b hi lo : Nat) : Nat := b / 2 ^ lo % 2 ^ (hi - lo + 1)

/-- R61: `interp(raw, n)`. -/
def interpRaw (cfg : Cfg) (raw n : Nat) : Int :=
  if cfg.signedLiterals then (if raw < 2 ^ (n - 1) then (raw : Int) else (raw : Int) - 2 ^ n) else raw

/-- R57, on natural numbers. -/
def trailRaw (md rm : Nat) : Nat :=
  if md = 3 then 0 else if md = 0 ∧ rm = 6 then 2 else if md = 0 then 0 else if md = 1 then 1 else 2

/-- `Register(REGNAME[w][sel])`. -/
def registerRaw (w sel : Nat) : Operand := regOperand (w == 1) (BitVec.ofNat 3 sel)

/-- R91: `resolve(mod, rm, w, START)`. -/
def resolveRaw (s : State) (md rm w start : Nat) : Operand :=
  if md = 3 then registerRaw w rm
  else if md = 0 ∧ rm = 6 then .directAddress (BitVec.ofNat 16 (memRead2 s (start + 2)))
  else if md = 0 then .effectiveAddress (BitVec.ofNat 3 rm) none
  else if md = 1 then .effectiveAddress (BitVec.ofNat 3 rm) (some (interpRaw s.cfg (memRead1 s (start + 2)) 8))
  else .effectiveAddress (BitVec.ofNat 3 rm) (some (interpRaw s.cfg (memRead2 s (start + 2)) 16))

/-- What an arm of the step does: emit an entry that accounts for `n` bytes, or raise a failure. -/
inductive ArmResult where
  /-- `Emit(e)`, then `POS <- START + n` -/
  | emits (e : Entry) (n : Nat)
  /-- `raise k(START)` -/
  | raises (k : FailureKind)
  deriving DecidableEq, Repr

/-- R90: `decode_rm`. -/
def refDecodeRm (s : State) (start b0 : Nat) : ArmResult :=
  let d := bitsOf b0 1 1
  let w := bitsOf b0 0 0
  if start + 2 > s.len then .raises .truncatedInput
  else
    let b1 := memRead1 s (start + 1)
    let md := bitsOf b1 7 6
    let reg := bitsOf b1 5 3
    let rm := bitsOf b1 2 0
    let n := 2 + trailRaw md rm
    if start + n > s.len then .raises .truncatedInput
    else
      let r := registerRaw w reg
      let m := resolveRaw s md rm w start
      .emits (if d = 1 then .mov r m else .mov m r) n

/-- R110: `decode_ri`. -/
def refDecodeRi (s : State) (start b0 : Nat) : ArmResult :=
  let w := bitsOf b0 3 3
  let reg := bitsOf b0 2 0
  let n := if w = 0 then 2 else 3
  if start + n > s.len then .raises .truncatedInput
  else
    let v := if w = 0 then interpRaw s.cfg (memRead1 s (start + 1)) 8 else interpRaw s.cfg (memRead2 s (start + 1)) 16
    .emits (.mov (registerRaw w reg) (.immediate v)) n

/-- R80, R53, R83: the arm taken at an offset below `LEN`. -/
def refArm (s : State) (start : Nat) : ArmResult :=
  let b0 := memRead1 s start
  if bitsOf b0 7 2 = 34 then refDecodeRm s start b0
  else if bitsOf b0 7 4 = 11 then refDecodeRi s start b0
  else
    match s.cfg.policy with
    | .abort => .raises .unsupportedOpcode
    | .skip => .emits (.unsupported start) 1

/-- R80: the step of a state with `STATUS` Running and `POS <= LEN`. -/
def refStep (s : State) : State :=
  if s.pos = s.len then { s with status := .done }
  else
    match refArm s s.pos with
    | .emits e n => { s with out := s.out ++ [e], pos := s.pos + n }
    | .raises k => { s with status := .failed k s.pos }

end Sys2Proof.Machine
end

