-- ==== Sys2Proof/Machine/Renderer.lean ====
section
/-! DEFINITION. The operand renderer (43_renderer.md): the pure function from a record to one line of text, a list of
characters, all 7-bit ASCII (R128). -/

namespace Sys2Proof.Machine

/-- R16, R122: the two letters of a register name. -/
def RegName.text : RegName → List Char
  | .al => ['a', 'l']
  | .cl => ['c', 'l']
  | .dl => ['d', 'l']
  | .bl => ['b', 'l']
  | .ah => ['a', 'h']
  | .ch => ['c', 'h']
  | .dh => ['d', 'h']
  | .bh => ['b', 'h']
  | .ax => ['a', 'x']
  | .cx => ['c', 'x']
  | .dx => ['d', 'x']
  | .bx => ['b', 'x']
  | .sp => ['s', 'p']
  | .bp => ['b', 'p']
  | .si => ['s', 'i']
  | .di => ['d', 'i']

/-- R17: `EQ[rm]`, one space on each side of the sum sign (the spec's D11, log entry 13). -/
def equationText (rm : Sel) : List Char :=
  match rm.toNat with
  | 0 => ['b', 'x', ' ', '+', ' ', 's', 'i']
  | 1 => ['b', 'x', ' ', '+', ' ', 'd', 'i']
  | 2 => ['b', 'p', ' ', '+', ' ', 's', 'i']
  | 3 => ['b', 'p', ' ', '+', ' ', 'd', 'i']
  | 4 => ['s', 'i']
  | 5 => ['d', 'i']
  | 6 => ['b', 'p']
  | _ => ['b', 'x']

/-- The character of a decimal digit. -/
def digitChar (d : Nat) : Char := Char.ofNat (48 + d % 10)

/-- The decimal numeral of `n` before `acc`; `fuel` above the number of digits, which `n + 1` always is. -/
def decDigits : Nat → Nat → List Char → List Char
  | 0, _, acc => acc
  | fuel + 1, n, acc =>
    if n < 10 then digitChar n :: acc else decDigits fuel (n / 10) (digitChar n :: acc)

/-- R127: the shortest decimal numeral of a natural number. -/
def decNat (n : Nat) : List Char := decDigits (n + 1) n []

/-- R127: `dec(v)`, a minus sign before the numeral of `-v` when `v` is negative. -/
def dec (v : Int) : List Char :=
  if v < 0 then '-' :: decNat v.natAbs else decNat v.natAbs

/-- Text inside square brackets (R124, R125). -/
def bracketed (inner : List Char) : List Char := '[' :: inner ++ [']']

/-- R121: one operand. A displacement of 0 is dropped under `CFG.ELIDE_ZERO_DISP` only (R124); a negative one keeps the plus
sign of the template (R126). -/
def renderOperand (cfg : Cfg) : Operand → List Char
  | .register name => name.text
  | .immediate v => dec v
  | .directAddress a => bracketed (dec a.toNat)
  | .effectiveAddress rm none => bracketed (equationText rm)
  | .effectiveAddress rm (some v) =>
    if cfg.elideZeroDisp ∧ v = 0 then bracketed (equationText rm)
    else bracketed (equationText rm ++ [' ', '+', ' '] ++ dec v)

/-- R120: the line of `Mov(dst, src)`: the mnemonic, one space, the destination, a comma and one space, the source. -/
def renderMov (cfg : Cfg) (dst src : Operand) : List Char :=
  ['m', 'o', 'v', ' '] ++ renderOperand cfg dst ++ [',', ' '] ++ renderOperand cfg src

/-- R131: the line of an entry; a marker has none. -/
def renderEntry (cfg : Cfg) : Entry → Option (List Char)
  | .mov dst src => some (renderMov cfg dst src)
  | .unsupported _ => none

/-- R20, R131: the text lines the host gets, one per decoded instruction, in the order of `OUT`. -/
def State.lines (s : State) : List (List Char) := s.out.filterMap (renderEntry s.cfg)

end Sys2Proof.Machine
end

