-- ==== Sys2Proof/Machine/Run.lean ====
section
/-! DEFINITION. A run of the block (40_decode_step.md R81): steps until `STATUS` is terminal. -/

namespace Sys2Proof.Machine

/-- At most `k` steps; where no step is enabled the state stays (R85). -/
def steps : Nat → State → State
  | 0, s => s
  | k + 1, s =>
    match step s with
    | .next t => steps k t
    | .fault _ => s
    | .refused _ => s

/-- R81: the final state of the run on a buffer and a configuration. R89 bounds the number of steps by `LEN + 1`. -/
def runOf (bytes : List Byte) (cfg : Cfg) : State :=
  steps (bytes.length + 1) (State.start bytes cfg)

end Sys2Proof.Machine
end

