-- ==== Sys2Proof/Safety.lean ====
section
/-! DEFINITION. What the claims are stated in: the invariants of R29, the legal records of R21 and R22, bytes standing in the
buffer, and the output grammar of R128. -/

namespace Sys2Proof.Machine

/-- The buffer's cells are in canonical form and lie below `LEN` (R30: no other offset exists). -/
def State.BufferOk (s : State) : Prop :=
  Memory.wf s.mem = true ∧ ∀ c ∈ s.mem, c.1 < s.len

/-- R29 (i), (iii), (iv), (v), with the buffer's form: the cursor lies within the buffer, a clean end stands at `LEN`, a
failure stands at its offset below `LEN`, and under `Abort` there is no marker. -/
structure State.Inv (s : State) : Prop where
  buffer : s.BufferOk
  posLe : s.pos ≤ s.len
  doneAtEnd : s.status = .done → s.pos = s.len
  failedAt : ∀ k off, s.status = .failed k off → s.pos = off ∧ off < s.len
  abortNoMarker : s.cfg.policy = .abort → ∀ off, Entry.unsupported off ∉ s.out

/-- R29 (ii): the offset after the given entries when decoding starts at `p` and each entry is what the pseudocode's arm emits
there; none where an entry is not the arm's. -/
def State.offsetAfter (s : State) : Nat → List Entry → Option Nat
  | p, [] => some p
  | p, e :: es =>
    if p < s.len then
      match refArm s p with
      | .emits e' n => if e' = e then State.offsetAfter s (p + n) es else none
      | .raises _ => none
    else none

/-- R29 (ii): `POS` is the boundary reached from offset 0 by decoding exactly the entries of `OUT`. -/
def State.OutDecodesBuffer (s : State) : Prop := s.offsetAfter 0 s.out = some s.pos

/-- R21: the range of an interpreted literal. -/
def literalInRange (cfg : Cfg) (v : Int) : Prop :=
  if cfg.signedLiterals then -32768 ≤ v ∧ v ≤ 32767 else 0 ≤ v ∧ v ≤ 65535

/-- R21: a memory operand the resolver can produce; without a displacement `rm` is never 6. -/
def Operand.LegalMem (cfg : Cfg) : Operand → Prop
  | .directAddress _ => True
  | .effectiveAddress rm none => rm ≠ 6#3
  | .effectiveAddress _ (some v) => literalInRange cfg v
  | .register _ => False
  | .immediate _ => False

/-- R22: the operand pairs that occur. -/
def Entry.Legal (cfg : Cfg) : Entry → Prop
  | .mov (.register _) (.register _) => True
  | .mov (.register _) (.immediate v) => literalInRange cfg v
  | .mov (.register _) src => src.LegalMem cfg
  | .mov dst (.register _) => dst.LegalMem cfg
  | .mov _ _ => False
  | .unsupported _ => cfg.policy = .skip

/-- The buffer holds these bytes from offset `a` on, all below `LEN`. -/
abbrev State.Holds (s : State) (a : Nat) (bytes : List Byte) : Prop :=
  ∀ k, (h : k < bytes.length) → s.readByte? (a + k) = some bytes[k]

/-- What the spec's instruction template says of one move (41_mov_rm_reg.md section 2), with `bytes` its encoding, `n` its
length and `dst`, `src` its operands under a configuration.
`completes`: with its `n` bytes below `LEN` it emits its record and advances, and changes nothing else.
`truncates`: with `START + n > LEN` it raises `TruncatedInput(START)` and changes nothing else.
`stepCompletes`, `stepTruncates`: the same of `step` in a running block, from the bytes in the buffer, where the truncated
buffer ends after the first `k` bytes. -/
structure MovRule (i : Instr) (n : Nat) (bytes : List Byte) (dst src : Cfg → Operand) : Prop where
  length : bytes.length = n
  completes : ∀ s : State, s.pos + n ≤ s.len →
    exec i s = .next { s with out := s.out ++ [.mov (dst s.cfg) (src s.cfg)], pos := s.pos + n }
  truncates : ∀ s : State, s.len < s.pos + n →
    exec i s = .next { s with status := .failed .truncatedInput s.pos }
  stepCompletes : ∀ s : State, s.status = .running → s.Holds s.pos bytes →
    step s = .next { s with out := s.out ++ [.mov (dst s.cfg) (src s.cfg)], pos := s.pos + n }
  stepTruncates : ∀ (s : State) (k : Nat), s.status = .running → 0 < k → k < n → s.len = s.pos + k →
    s.Holds s.pos (bytes.take k) → step s = .next { s with status := .failed .truncatedInput s.pos }

/-- The kind of an entry with every literal's value forgotten and its presence kept (R88). -/
def Entry.shape : Entry → Entry
  | .mov dst src => .mov (opShape dst) (opShape src)
  | .unsupported off => .unsupported off
where
  opShape : Operand → Operand
    | .register n => .register n
    | .directAddress a => .directAddress a
    | .effectiveAddress rm d => .effectiveAddress rm (d.map fun _ => 0)
    | .immediate _ => .immediate 0

/-- R88: what two runs on one buffer under one policy share at every moment, whatever their signedness and elision: the cursor,
the status, the readable bytes, and the entries up to the values of their literals. -/
structure State.SameUpToLiterals (s s' : State) : Prop where
  policy : s'.cfg.policy = s.cfg.policy
  len : s'.len = s.len
  bytes : ∀ a, s'.readByte? a = s.readByte? a
  pos : s'.pos = s.pos
  status : s'.status = s.status
  out : s'.out.map Entry.shape = s.out.map Entry.shape

/-! The output language (R128). -/

/-- `unsigned`: "0", or digits whose first is not "0". -/
def IsUnsigned (t : List Char) : Prop :=
  t = ['0'] ∨ ∃ c cs, t = c :: cs ∧ c ≠ '0' ∧ ∀ x ∈ t, x.isDigit = true

/-- The number a string of digits spells, most significant first. -/
def valueOf (t : List Char) : Nat := t.foldl (fun n c => 10 * n + (c.toNat - 48)) 0

/-- `number`, with R128's bounds on its value: a leading minus sign under `CFG.SIGNED_LITERALS` only. -/
def IsNumber (cfg : Cfg) (t : List Char) : Prop :=
  (IsUnsigned t ∧ valueOf t ≤ 65535) ∨
  (cfg.signedLiterals = true ∧ ∃ u, t = '-' :: u ∧ IsUnsigned u ∧ valueOf u ≤ 32768)

/-- `equation`: one of R128's eight, spelled as the grammar spells them. -/
def IsEquation (t : List Char) : Prop :=
  String.ofList t ∈ ["bx + si", "bx + di", "bp + si", "bp + di", "si", "di", "bp", "bx"]

/-- `mem`: a direct address, an equation, or an equation and a number, in square brackets. -/
def IsMem (cfg : Cfg) (t : List Char) : Prop :=
  (∃ u, t = ['['] ++ u ++ [']'] ∧ IsUnsigned u ∧ valueOf u ≤ 65535) ∨
  (∃ e, t = ['['] ++ e ++ [']'] ∧ IsEquation e) ∨
  (∃ e u, t = ['['] ++ e ++ [' ', '+', ' '] ++ u ++ [']'] ∧ IsEquation e ∧ IsNumber cfg u)

/-- `reg`: one of R128's sixteen names. -/
def IsReg (t : List Char) : Prop :=
  String.ofList t ∈ ["al", "cl", "dl", "bl", "ah", "ch", "dh", "bh", "ax", "cx", "dx", "bx", "sp", "bp", "si", "di"]

/-- `line`, with the operand pairs that occur: at least one register, an immediate only as a source. -/
def IsLine (cfg : Cfg) (t : List Char) : Prop :=
  ∃ a b, t = ['m', 'o', 'v', ' '] ++ a ++ [',', ' '] ++ b ∧
    ((IsReg a ∧ (IsReg b ∨ IsNumber cfg b ∨ IsMem cfg b)) ∨ (IsMem cfg a ∧ IsReg b))

/-- R132: the record that a line still tells under a configuration: with elision on, a displacement of 0 reads as none. -/
def Operand.printed (cfg : Cfg) : Operand → Operand
  | .register n => .register n
  | .directAddress a => .directAddress a
  | .effectiveAddress rm none => .effectiveAddress rm none
  | .effectiveAddress rm (some v) =>
    if cfg.elideZeroDisp ∧ v = 0 then .effectiveAddress rm none else .effectiveAddress rm (some v)
  | .immediate v => .immediate v

end Sys2Proof.Machine
end

