-- ==== Sys2Proof/Certificates/Slice0/Obligations.lean ====
section
/-! DEFINITION. The statements for the provers. Every one quantifies over all configurations: none rests on the values
`State.reset` shows for the buffer or for CFG (log entries 2 and 3). "Running" is `STATUS = Running`. -/

open Sys2Proof Sys2Proof.Machine

/-! Encoding. -/

/-- R51, R56: no field of an encoding is dropped or mixed up: every well-formed instruction, at every operand value, is read
back from its bytes, and the bytes after it are left. -/
def Obligations.DecodeOfEncodeIsIdentity : Prop :=
  ∀ (i : Instr) (rest : List Byte), i.wf = true → decode (encode i ++ rest) = .instr i rest

/-- The other direction (R51, R56, R65): what the decoder answers is well-formed and is what the bytes spell, so two
instructions never share an encoding. -/
def Obligations.DecodedBytesAreItsEncoding : Prop :=
  ∀ (bytes rest : List Byte) (i : Instr), decode bytes = .instr i rest → i.wf = true ∧ bytes = encode i ++ rest

/-- The worked byte sequences of 95_test_vectors.md, one per encoding. -/
def Obligations.SpecWordsDecode : Prop :=
  decode [0x89#8, 0xD9#8] = .instr (.movRegToRm true 3#3 1#3) [] ∧
  decode [0x8A#8, 0xC8#8] = .instr (.movRmToReg false 1#3 0#3) [] ∧
  decode [0x89#8, 0x16#8, 0xFF#8, 0xFF#8] = .instr (.movRegToDirect true 2#3 65535#16) [] ∧
  decode [0x8B#8, 0x1E#8, 0x82#8, 0x0D#8] = .instr (.movDirectToReg true 3#3 3458#16) [] ∧
  decode [0x88#8, 0x0A#8] = .instr (.movRegToMem false 1#3 2#3) [] ∧
  decode [0x8A#8, 0x00#8] = .instr (.movMemToReg false 0#3 0#3) [] ∧
  decode [0x88#8, 0x6E#8, 0x00#8] = .instr (.movRegToMemDisp8 false 5#3 6#3 0#8) [] ∧
  decode [0x8A#8, 0x60#8, 0x04#8] = .instr (.movMemDisp8ToReg false 4#3 0#3 4#8) [] ∧
  decode [0x89#8, 0x8C#8, 0xD4#8, 0xFE#8] = .instr (.movRegToMemDisp16 true 1#3 4#3 0xFED4#16) [] ∧
  decode [0x8A#8, 0x80#8, 0x87#8, 0x13#8] = .instr (.movMemDisp16ToReg false 0#3 0#3 0x1387#16) [] ∧
  decode [0xB1#8, 0x0C#8] = .instr (.movImm8ToReg 1#3 12#8) [] ∧
  decode [0xBA#8, 0x94#8, 0xF0#8] = .instr (.movImm16ToReg 2#3 0xF094#16) [] ∧
  decode [0x90#8] = .instr (.unsupported 0x90#8) [] ∧
  decode [0x8B#8, 0x1E#8, 0x00#8] = .truncated

/-- R52: each pattern's three ways to write its test agree with the classifier, and the patterns are disjoint. -/
def Obligations.ClassifierPatternTests : Prop :=
  ∀ b0 : Byte,
    (classify b0 = .rm ↔ b0.toNat / 4 = 0b100010) ∧
    (classify b0 = .rm ↔ b0 &&& 0xFC#8 = 0x88#8) ∧
    (classify b0 = .rm ↔ 0x88 ≤ b0.toNat ∧ b0.toNat ≤ 0x8B) ∧
    (classify b0 = .ri ↔ b0.toNat / 16 = 0b1011) ∧
    (classify b0 = .ri ↔ b0 &&& 0xF0#8 = 0xB0#8) ∧
    (classify b0 = .ri ↔ 0xB0 ≤ b0.toNat ∧ b0.toNat ≤ 0xBF) ∧
    ¬(b0.toNat / 4 = 0b100010 ∧ b0.toNat / 16 = 0b1011)

/-- R53: the classifier as the rule writes it, and its counts: 4 first bytes give RM, 16 give RI, 236 neither. -/
def Obligations.ClassifierIsTotalWithCounts : Prop :=
  (∀ b0 : Byte, classify b0 =
    if b0.toNat / 4 = 0b100010 then .rm else if b0.toNat / 16 = 0b1011 then .ri else .unsupported) ∧
  ((List.range 256).filter fun n => classify (BitVec.ofNat 8 n) = .rm).length = 4 ∧
  ((List.range 256).filter fun n => classify (BitVec.ofNat 8 n) = .ri).length = 16 ∧
  ((List.range 256).filter fun n => classify (BitVec.ofNat 8 n) = .unsupported).length = 236

/-- R54: the fields of the twenty recognised first bytes. -/
def Obligations.FirstByteFields : Prop :=
  (∀ b0 : Byte, classify b0 = .rm →
    (dBit b0 = true ↔ b0.toNat / 2 % 2 = 1) ∧ (wBitRm b0 = true ↔ b0.toNat % 2 = 1)) ∧
  (∀ b0 : Byte, classify b0 = .ri →
    (wBitRi b0 = true ↔ b0.toNat / 8 % 2 = 1) ∧ (regFieldRi b0).toNat = b0.toNat % 8) ∧
  (dBit 0x88#8, wBitRm 0x88#8) = (false, false) ∧ (dBit 0x89#8, wBitRm 0x89#8) = (false, true) ∧
  (dBit 0x8A#8, wBitRm 0x8A#8) = (true, false) ∧ (dBit 0x8B#8, wBitRm 0x8B#8) = (true, true) ∧
  (∀ r : Sel, wBitRi (0xB0#8 + r.setWidth 8) = false ∧ regFieldRi (0xB0#8 + r.setWidth 8) = r) ∧
  (∀ r : Sel, wBitRi (0xB8#8 + r.setWidth 8) = true ∧ regFieldRi (0xB8#8 + r.setWidth 8) = r) ∧
  ([0xB0#8, 0xB1#8, 0xB2#8, 0xB3#8, 0xB4#8, 0xB5#8, 0xB6#8, 0xB7#8].map
    fun b0 => String.ofList (regName (wBitRi b0) (regFieldRi b0)).text) = ["al", "cl", "dl", "bl", "ah", "ch", "dh", "bh"] ∧
  ([0xB8#8, 0xB9#8, 0xBA#8, 0xBB#8, 0xBC#8, 0xBD#8, 0xBE#8, 0xBF#8].map
    fun b0 => String.ofList (regName (wBitRi b0) (regFieldRi b0)).text) = ["ax", "cx", "dx", "bx", "sp", "bp", "si", "di"]

/-- R55: the ModRM byte is `64*mod + 8*reg + rm`, and each of its 256 values is legal: with the bytes it needs behind it, it
decodes after every RM first byte. -/
def Obligations.ModRmByteFields : Prop :=
  ∀ b1 : Byte,
    b1.toNat = 64 * (modField b1).toNat + 8 * (regField b1).toNat + (rmField b1).toNat ∧
    ∀ (b0 lo hi : Byte) (rest : List Byte), classify b0 = .rm →
      ∃ i rest', decode (b0 :: b1 :: lo :: hi :: rest) = .instr i rest' ∧ i ≠ .unsupported b0

/-- R57: an RM instruction consumes two bytes and the trailing bytes of its `mod` and `rm`: none for 11; two for 00 with 110
and none for 00 otherwise; one for 01; two for 10. -/
def Obligations.RmFormConsumesItsTrail : Prop :=
  (∀ rm, trail 0b11#2 rm = 0) ∧ trail 0b00#2 0b110#3 = 2 ∧ (∀ rm, rm ≠ 0b110#3 → trail 0b00#2 rm = 0) ∧
  (∀ rm, trail 0b01#2 rm = 1) ∧ (∀ rm, trail 0b10#2 rm = 2) ∧
  ∀ (b0 b1 : Byte) (rest rest' : List Byte) (i : Instr), classify b0 = .rm →
    decode (b0 :: b1 :: rest) = .instr i rest' → rest.length = trail (modField b1) (rmField b1) + rest'.length

/-- R63: the length read off the first one or two bytes is the number of bytes the decoder consumes; it is 2, 3 or 4, by the
rule's table of forms; an unsupported first byte has none. -/
def Obligations.LengthFromFirstTwoBytes : Prop :=
  ∀ b0 b1 : Byte,
    lengthOf b0 b1 = (match classify b0 with
      | .rm => some (match modField b1, rmField b1 with
          | 0b11#2, _ => 2
          | 0b00#2, 0b110#3 => 4
          | 0b00#2, _ => 2
          | 0b01#2, _ => 3
          | _, _ => 4)
      | .ri => some (if wBitRi b0 = false then 2 else 3)
      | .unsupported => none) ∧
    ∀ (n : Nat) (rest rest' : List Byte) (i : Instr), lengthOf b0 b1 = some n →
      decode (b0 :: b1 :: rest) = .instr i rest' →
      instrLength i = n ∧ rest.length + 2 = n + rest'.length ∧ 2 ≤ n ∧ n ≤ 4

/-- R140, R144: the decoder rejects as truncated exactly when the first byte is recognised and fewer bytes remain than its
form requires. -/
def Obligations.TruncatedExactlyWhenBytesMissing : Prop :=
  ∀ bytes : List Byte, decode bytes = .truncated ↔
    ∃ b0 rest, bytes = b0 :: rest ∧
      ((classify b0 = .rm ∧ (rest = [] ∨ ∃ b1 rest', rest = b1 :: rest' ∧
        rest'.length < trail (modField b1) (rmField b1))) ∨
       (classify b0 = .ri ∧ rest.length < if wBitRi b0 then 2 else 1))

/-- R35: 16-bit literals are little-endian, in the decoder's assembly of two bytes and in the encoder's split, with the rule's
two examples. -/
def Obligations.LiteralsAreLittleEndian : Prop :=
  (∀ lo hi : Byte, (littleEndian lo hi).toNat = lo.toNat + 256 * hi.toNat ∧ wordBytes (littleEndian lo hi) = [lo, hi]) ∧
  (littleEndian 0x00#8 0x00#8).toNat = 0 ∧ (littleEndian 0x82#8 0x0D#8).toNat = 3458

/-- R16: `REGNAME` as the rule's table gives it, and its sixteen names distinct. -/
def Obligations.RegisterNameTable : Prop :=
  ([0#3, 1#3, 2#3, 3#3, 4#3, 5#3, 6#3, 7#3].map fun sel => String.ofList (regName false sel).text) =
    ["al", "cl", "dl", "bl", "ah", "ch", "dh", "bh"] ∧
  ([0#3, 1#3, 2#3, 3#3, 4#3, 5#3, 6#3, 7#3].map fun sel => String.ofList (regName true sel).text) =
    ["ax", "cx", "dx", "bx", "sp", "bp", "si", "di"] ∧
  ∀ (w w' : Bool) (sel sel' : Sel), (regName w sel).text = (regName w' sel').text → w = w' ∧ sel = sel'

/-- R61 (that the option governs 8-bit literals is the spec's own choice D6, log entry 6): the value as the rule writes it, the
same in 16-bit terms, its range, and the rule's corner values. -/
def Obligations.LiteralInterpretation : Prop :=
  (∀ cfg : Cfg, ∀ raw : Byte, interp cfg raw =
    if cfg.signedLiterals then (if raw.toNat < 128 then (raw.toNat : Int) else raw.toNat - 256) else raw.toNat) ∧
  (∀ cfg : Cfg, ∀ raw : Word, interp cfg raw =
    if cfg.signedLiterals then (if raw.toNat < 32768 then (raw.toNat : Int) else raw.toNat - 65536) else raw.toNat) ∧
  (∀ cfg : Cfg, ∀ raw : Byte, interp cfg raw =
    interp cfg (if cfg.signedLiterals then raw.signExtend 16 else raw.zeroExtend 16)) ∧
  (∀ cfg : Cfg, ∀ raw : Word, literalInRange cfg (interp cfg raw)) ∧
  (∀ cfg : Cfg, cfg.signedLiterals = true →
    [interp cfg 0x7F#8, interp cfg 0x80#8, interp cfg 0xF4#8, interp cfg 0xFF#8, interp cfg 0x7FFF#16,
      interp cfg 0x8000#16, interp cfg 0xF094#16, interp cfg 0xFFFF#16] = [127, -128, -12, -1, 32767, -32768, -3948, -1]) ∧
  (∀ cfg : Cfg, cfg.signedLiterals = false →
    [interp cfg 0x7F#8, interp cfg 0x80#8, interp cfg 0xF4#8, interp cfg 0xFF#8, interp cfg 0x7FFF#16,
      interp cfg 0x8000#16, interp cfg 0xF094#16, interp cfg 0xFFFF#16] = [127, 128, 244, 255, 32767, 32768, 61588, 65535])

/-! The instructions. In each, the offset START in `TruncatedInput(START)` is the spec's own choice D13 (log entry 15), and the
reading of an 8-bit literal its choice D6 (log entry 6). -/

/-- R100. -/
def Obligations.MovRegToRmEmitsOrTruncates : Prop :=
  ∀ (w : Bool) (reg rm : Sel),
    MovRule (.movRegToRm w reg rm) 2 [0b1000100#7 ++ BitVec.ofBool w, 0b11#2 ++ reg ++ rm]
      (fun _ => .register (regName w rm)) (fun _ => .register (regName w reg))

/-- R101. -/
def Obligations.MovRmToRegEmitsOrTruncates : Prop :=
  ∀ (w : Bool) (reg rm : Sel),
    MovRule (.movRmToReg w reg rm) 2 [0b1000101#7 ++ BitVec.ofBool w, 0b11#2 ++ reg ++ rm]
      (fun _ => .register (regName w reg)) (fun _ => .register (regName w rm))

/-- R102. -/
def Obligations.MovRegToMemEmitsOrTruncates : Prop :=
  ∀ (w : Bool) (reg rm : Sel), rm ≠ 0b110#3 →
    MovRule (.movRegToMem w reg rm) 2 [0b1000100#7 ++ BitVec.ofBool w, 0b00#2 ++ reg ++ rm]
      (fun _ => .effectiveAddress rm none) (fun _ => .register (regName w reg))

/-- R103. -/
def Obligations.MovMemToRegEmitsOrTruncates : Prop :=
  ∀ (w : Bool) (reg rm : Sel), rm ≠ 0b110#3 →
    MovRule (.movMemToReg w reg rm) 2 [0b1000101#7 ++ BitVec.ofBool w, 0b00#2 ++ reg ++ rm]
      (fun _ => .register (regName w reg)) (fun _ => .effectiveAddress rm none)

/-- R104: the address is unsigned under every configuration. -/
def Obligations.MovRegToDirectEmitsOrTruncates : Prop :=
  ∀ (w : Bool) (reg : Sel) (lo hi : Byte),
    MovRule (.movRegToDirect w reg (hi ++ lo)) 4 [0b1000100#7 ++ BitVec.ofBool w, 0b00#2 ++ reg ++ 0b110#3, lo, hi]
      (fun _ => .directAddress (hi ++ lo)) (fun _ => .register (regName w reg))

/-- R105: the address is unsigned under every configuration. -/
def Obligations.MovDirectToRegEmitsOrTruncates : Prop :=
  ∀ (w : Bool) (reg : Sel) (lo hi : Byte),
    MovRule (.movDirectToReg w reg (hi ++ lo)) 4 [0b1000101#7 ++ BitVec.ofBool w, 0b00#2 ++ reg ++ 0b110#3, lo, hi]
      (fun _ => .register (regName w reg)) (fun _ => .directAddress (hi ++ lo))

/-- R106: the displacement is present in the record even when it is 0. -/
def Obligations.MovRegToMemDisp8EmitsOrTruncates : Prop :=
  ∀ (w : Bool) (reg rm : Sel) (lo : Byte),
    MovRule (.movRegToMemDisp8 w reg rm lo) 3 [0b1000100#7 ++ BitVec.ofBool w, 0b01#2 ++ reg ++ rm, lo]
      (fun cfg => .effectiveAddress rm (some (interp cfg lo))) (fun _ => .register (regName w reg))

/-- R107. -/
def Obligations.MovMemDisp8ToRegEmitsOrTruncates : Prop :=
  ∀ (w : Bool) (reg rm : Sel) (lo : Byte),
    MovRule (.movMemDisp8ToReg w reg rm lo) 3 [0b1000101#7 ++ BitVec.ofBool w, 0b01#2 ++ reg ++ rm, lo]
      (fun _ => .register (regName w reg)) (fun cfg => .effectiveAddress rm (some (interp cfg lo)))

/-- R108. -/
def Obligations.MovRegToMemDisp16EmitsOrTruncates : Prop :=
  ∀ (w : Bool) (reg rm : Sel) (lo hi : Byte),
    MovRule (.movRegToMemDisp16 w reg rm (hi ++ lo)) 4 [0b1000100#7 ++ BitVec.ofBool w, 0b10#2 ++ reg ++ rm, lo, hi]
      (fun cfg => .effectiveAddress rm (some (interp cfg (hi ++ lo)))) (fun _ => .register (regName w reg))

/-- R109. -/
def Obligations.MovMemDisp16ToRegEmitsOrTruncates : Prop :=
  ∀ (w : Bool) (reg rm : Sel) (lo hi : Byte),
    MovRule (.movMemDisp16ToReg w reg rm (hi ++ lo)) 4 [0b1000101#7 ++ BitVec.ofBool w, 0b10#2 ++ reg ++ rm, lo, hi]
      (fun _ => .register (regName w reg)) (fun cfg => .effectiveAddress rm (some (interp cfg (hi ++ lo))))

/-- R111: the register and the immediate are both 8 bits wide. -/
def Obligations.MovImm8ToRegEmitsOrTruncates : Prop :=
  ∀ (reg : Sel) (lo : Byte),
    MovRule (.movImm8ToReg reg lo) 2 [0b10110#5 ++ reg, lo]
      (fun _ => .register (regName false reg)) (fun cfg => .immediate (interp cfg lo))

/-- R112: the register and the immediate are both 16 bits wide. -/
def Obligations.MovImm16ToRegEmitsOrTruncates : Prop :=
  ∀ (reg : Sel) (lo hi : Byte),
    MovRule (.movImm16ToReg reg (hi ++ lo)) 3 [0b10111#5 ++ reg, lo, hi]
      (fun _ => .register (regName true reg)) (fun cfg => .immediate (interp cfg (hi ++ lo)))

/-- R83 under `Abort` (that OUT and POS stay is the spec's own choice D14, log entry 15): an unsupported byte at the cursor
raises `UnsupportedOpcode(START)`, whatever follows it. -/
def Obligations.UnsupportedByteAborts : Prop :=
  ∀ (s : State) (b0 : Byte), s.cfg.policy = .abort →
    exec (.unsupported b0) s = .next { s with status := .failed .unsupportedOpcode s.pos } ∧
    (s.status = .running → s.readByte? s.pos = some b0 → classify b0 = .unsupported →
      step s = .next { s with status := .failed .unsupportedOpcode s.pos })

/-- R83 under `Skip` (the marker's content and the one-byte advance are the spec's own choice D8, log entry 16): an unsupported
byte at the cursor leaves a marker and is passed over, never silently. -/
def Obligations.UnsupportedByteSkips : Prop :=
  ∀ (s : State) (b0 : Byte), s.cfg.policy = .skip →
    exec (.unsupported b0) s = .next { s with out := s.out ++ [.unsupported s.pos], pos := s.pos + 1 } ∧
    (s.status = .running → s.readByte? s.pos = some b0 → classify b0 = .unsupported →
      step s = .next { s with out := s.out ++ [.unsupported s.pos], pos := s.pos + 1 })

/-- R92, R94, R95, R96, R98 (that the option governs the 8-bit displacement of `mod = 01` is the spec's own choice D6, log entry
6): for every RM first byte and ModRM byte whose instruction a step emits, the `reg` operand is `Register(REGNAME[w][reg])` and
the destination exactly when `d = 1`, the other operand is the resolver's, and the cursor moves by the form's length. -/
def Obligations.RmFormOperands : Prop :=
  ∀ (s t : State) (b0 b1 : Byte), s.status = .running → s.Holds s.pos [b0, b1] → classify b0 = .rm →
    step s = .next t → t.status = .running →
    ∃ m : Operand,
      t.out = s.out ++ [if dBit b0 then .mov (.register (regName (wBitRm b0) (regField b1))) m
        else .mov m (.register (regName (wBitRm b0) (regField b1)))] ∧
      (modField b1 = 0b11#2 → m = .register (regName (wBitRm b0) (rmField b1)) ∧ t.pos = s.pos + 2) ∧
      (modField b1 = 0b00#2 → rmField b1 ≠ 0b110#3 → m = .effectiveAddress (rmField b1) none ∧ t.pos = s.pos + 2) ∧
      (modField b1 = 0b01#2 → ∃ lo, s.readByte? (s.pos + 2) = some lo ∧
        m = .effectiveAddress (rmField b1) (some (interp s.cfg lo)) ∧ t.pos = s.pos + 3) ∧
      (modField b1 = 0b10#2 → ∃ lo hi : Byte, s.readByte? (s.pos + 2) = some lo ∧ s.readByte? (s.pos + 3) = some hi ∧
        m = .effectiveAddress (rmField b1) (some (interp s.cfg (hi ++ lo))) ∧ t.pos = s.pos + 4)

/-- R93 (unsigned by the spec's own choice D12, log entry 13): `mod = 00` with `rm = 110` is the direct address of the two
following bytes, four bytes long, and never an equation. -/
def Obligations.DirectAddressForm : Prop :=
  ∀ (s t : State) (b0 b1 : Byte), s.status = .running → s.Holds s.pos [b0, b1] → classify b0 = .rm →
    modField b1 = 0b00#2 → rmField b1 = 0b110#3 → step s = .next t → t.status = .running →
    ∃ lo hi : Byte, s.readByte? (s.pos + 2) = some lo ∧ s.readByte? (s.pos + 3) = some hi ∧ t.pos = s.pos + 4 ∧
      t.out = s.out ++ [if dBit b0 then .mov (.register (regName (wBitRm b0) (regField b1))) (.directAddress (hi ++ lo))
        else .mov (.directAddress (hi ++ lo)) (.register (regName (wBitRm b0) (regField b1)))]

/-- R97: for `mod = 11` swapping the direction bit swaps destination and source over the same pair, so every register move has
two encodings; the two leave the same state. -/
def Obligations.RegisterMovesHaveTwoEncodings : Prop :=
  ∀ (s : State) (w : Bool) (reg rm : Sel),
    exec (.movRegToRm w reg rm) s = exec (.movRmToReg w rm reg) s ∧
    encode (.movRegToRm w reg rm) ≠ encode (.movRmToReg w rm reg)

/-! Frames. -/

/-- What any of the thirteen instructions leaves unchanged (R31, R34, R40, R145): the buffer with every byte of it, its length
and the configuration always; OUT but for at most one entry appended; and where it raises, everything but STATUS, where it
emits, STATUS. It never stops without a next state (R142). That a failure keeps OUT and POS is the spec's own choice D14 (log
entry 15), the skipped byte's marker and length its choice D8 (log entry 16). -/
def Obligations.ExecFrame : Prop :=
  ∀ (i : Instr) (s : State), ∃ t, exec i s = .next t ∧
    t.mem = s.mem ∧ t.len = s.len ∧ t.cfg = s.cfg ∧ (∀ a, t.readByte? a = s.readByte? a) ∧
    ((t.status = s.status ∧ t.pos = s.pos + instrLength i ∧ ∃ e, t.out = s.out ++ [e]) ∨
     ((∃ k, t.status = .failed k s.pos) ∧ t.pos = s.pos ∧ t.out = s.out))

/-- What a step leaves unchanged (R12, R13, R31, R40; that a failing step leaves the cursor is the spec's own choice D14, log
entry 15): the buffer, its length and the configuration always; it appends exactly
one entry and stays Running, or appends nothing, leaves the cursor and ends the run. -/
def Obligations.StepFrame : Prop :=
  ∀ s t : State, step s = .next t →
    t.mem = s.mem ∧ t.len = s.len ∧ t.cfg = s.cfg ∧ (∀ a, t.readByte? a = s.readByte? a) ∧
    ((t.status = .running ∧ ∃ e, t.out = s.out ++ [e]) ∨ (t.status ≠ .running ∧ t.out = s.out ∧ t.pos = s.pos))

/-! The step. -/

/-- R80 (that a truncated instruction is reported at POS and changes nothing but STATUS is the spec's own choices D13 and D14, log
entry 15): what a step of a running block is, by the decoder's answer at the cursor. -/
def Obligations.StepRunsDecodedInstruction : Prop :=
  ∀ s : State, s.status = .running →
    (s.pos = s.len → step s = .next { s with status := .done }) ∧
    (s.pos < s.len → ∀ i rest, decode s.window = .instr i rest → step s = exec i s) ∧
    (s.pos < s.len → decode s.window = .truncated → step s = .next { s with status := .failed .truncatedInput s.pos })

/-- R80, R82: wherever the bytes of a well-formed instruction stand at the cursor, a step of a running block is that
instruction, whatever follows it in the buffer. -/
def Obligations.StepRunsInstructionAtCursor : Prop :=
  ∀ (s : State) (i : Instr), s.status = .running → i.wf = true → s.Holds s.pos (encode i) → step s = exec i s

/-- R84 and R140 (an empty buffer ends cleanly by the spec's own choice D21, log entry 18): the clean end is reached exactly from the end of
the buffer, and never from inside an instruction. -/
def Obligations.DoneExactlyAtEndOfBuffer : Prop :=
  ∀ s t : State, s.status = .running → step s = .next t →
    (t.status = .done ↔ s.pos = s.len) ∧ (t.status = .done → t = { s with status := .done })

/-- R85: from Done and Failed no step exists and nothing changes however often the block is asked; a reset makes it Running. -/
def Obligations.TerminalStatusIsFinal : Prop :=
  (∀ s : State, s.status ≠ .running → (∀ t, step s ≠ .next t) ∧ ∀ k, steps k s = s) ∧
  (∀ bytes cfg, (State.start bytes cfg).status = .running)

/-- The model's own stops (log entries 4 and 5): a step answers no next state exactly when STATUS is terminal or the cursor is
past the buffer; in a running block within its buffer there always is one (R5, R142), and never a refusal. -/
def Obligations.StepAnswersUnlessTerminal : Prop :=
  ∀ s : State,
    ((∃ t, step s = .next t) ↔ s.status = .running ∧ s.pos ≤ s.len) ∧
    (s.status ≠ .running → step s = .fault .noStepEnabled) ∧
    (s.status = .running → s.len < s.pos → step s = .fault .outsideBuffer)

/-- R143, R145, R144 (offset and preserved state by the spec's own choices D13 and D14, log entry 15): a step that fails records
the cursor's offset and changes nothing else; the kind says whether the byte there was recognised. -/
def Obligations.FailuresArePrecise : Prop :=
  ∀ (s t : State) (k : FailureKind) (off : Nat), s.status = .running → step s = .next t → t.status = .failed k off →
    off = s.pos ∧ t = { s with status := .failed k off } ∧
    ∃ b0, s.readByte? s.pos = some b0 ∧
      (k = .unsupportedOpcode → classify b0 = .unsupported ∧ s.cfg.policy = .abort) ∧
      (k = .truncatedInput → classify b0 ≠ .unsupported ∧ s.len < s.pos + 4)

/-- R11, R12, R86: a step that emits moves the cursor forward, by the length of the instruction decoded there and by nothing
else, within the buffer. The length 1 of a skipped byte is the spec's own choice D8 (log entry 16). -/
def Obligations.CursorAdvancesByInstructionLength : Prop :=
  ∀ s t : State, step s = .next t → t.status = .running →
    ∃ i rest, decode s.window = .instr i rest ∧ t.pos = s.pos + instrLength i ∧ s.pos < t.pos ∧ t.pos ≤ t.len

/-- R11 (the width is the spec's own choice D2, log entry 9): a cursor register of any width that holds LEN holds POS after
every step. -/
def Obligations.CursorFitsAnyWidthThatHoldsLen : Prop :=
  ∀ (s t : State) (posBits : Nat), s.pos ≤ s.len → s.len < 2 ^ posBits → step s = .next t → t.pos < 2 ^ posBits

/-- R30, R33, R39: a step depends on the buffer only through its bytes below LEN: two states that agree there, and in
everything else but the cell list, step alike. -/
def Obligations.OnlyBytesBelowLenMatter : Prop :=
  ∀ (s s' t : State), s'.pos = s.pos → s'.out = s.out → s'.status = s.status → s'.len = s.len → s'.cfg = s.cfg →
    (∀ a, s'.readByte? a = s.readByte? a) → step s = .next t → step s' = .next { t with mem := s'.mem }

/-- R80 to R84, R90, R91, R110: a step of a running block within its buffer is the spec's pseudocode, byte for byte. The
pseudocode carries the spec's own choices D6 (log entry 6), D8 (16), D12 (13), D13 and D14 (15). -/
def Obligations.StepRefinesPseudocode : Prop :=
  ∀ s : State, s.status = .running → s.pos ≤ s.len → step s = .next (refStep s)

/-! Reset. -/

/-- R28, R160 (offset 0 by the spec's own choice D3, log entry 17): reset sets POS, OUT and STATUS, and latches the bytes, their number and
the configuration the host presents. -/
def Obligations.ResetLatchesInputs : Prop :=
  ∀ (bytes : List Byte) (cfg : Cfg),
    (State.start bytes cfg).pos = 0 ∧ (State.start bytes cfg).out = [] ∧ (State.start bytes cfg).status = .running ∧
    (State.start bytes cfg).len = bytes.length ∧ (State.start bytes cfg).cfg = cfg ∧
    ∀ a, (State.start bytes cfg).readByte? a = bytes[a]?

/-- R28 (POS = 0 by the spec's own choice D3, log entry 17): POS, OUT and STATUS after reset, in the state of the interface. -/
def Obligations.ResetStateValues : Prop :=
  State.reset.pos = 0 ∧ State.reset.out = [] ∧ State.reset.status = .running

/-! Invariants. -/

/-- R29 (i), (iii), (iv), (v) and R30 hold after reset on any buffer and configuration, and in the interface's reset state. -/
def Obligations.InvariantHoldsAfterReset : Prop :=
  (∀ (bytes : List Byte) (cfg : Cfg), (State.start bytes cfg).Inv) ∧ State.reset.Inv

/-- R29 (i), (iii), (iv), (v) and R30: every step keeps them, from every state that has them. That a failure stands at its
instruction's first byte is the spec's own choices D13 and D14 (log entry 15). -/
def Obligations.StepKeepsInvariant : Prop :=
  ∀ s t : State, s.Inv → step s = .next t → t.Inv

/-- R29 (ii): that OUT is exactly what decoding the buffer from offset 0 up to POS emits is kept by every step.
The pseudocode carries the spec's own choices D6 (log entry 6), D8 (16), D12 (13) and D14 (15), offset 0 its choice D3 (17). -/
def Obligations.StepKeepsOutDecodesBuffer : Prop :=
  ∀ s t : State, s.pos ≤ s.len → s.OutDecodesBuffer → step s = .next t → t.OutDecodesBuffer

/-- R21, R22: every step keeps every record legal: a register in each, never two memory operands, an immediate only as a
source, literals in range, no displacement-less `bp`, and no marker under `Abort`. -/
def Obligations.StepKeepsRecordsLegal : Prop :=
  ∀ s t : State, (∀ e ∈ s.out, e.Legal s.cfg) → step s = .next t → ∀ e ∈ t.out, e.Legal t.cfg

/-- R88, R67: every step keeps two states equal up to the values of literals, whatever their signedness and elision; where the
signedness is the same, it keeps OUT itself equal. -/
def Obligations.StepKeepsAgreementUpToLiterals : Prop :=
  ∀ s s' t : State, s.SameUpToLiterals s' → step s = .next t →
    ∃ t', step s' = .next t' ∧ t.SameUpToLiterals t' ∧
      (s'.cfg.signedLiterals = s.cfg.signedLiterals → s'.out = s.out → t'.out = t.out)

/-! Runs. -/

/-- R5, R81, R89: on every buffer under every configuration the run ends within LEN + 1 steps, with at most LEN entries. -/
def Obligations.RunTerminates : Prop :=
  ∀ (bytes : List Byte) (cfg : Cfg),
    (runOf bytes cfg).status ≠ .running ∧ (runOf bytes cfg).out.length ≤ bytes.length ∧
    ∀ k, bytes.length + 1 ≤ k → steps k (State.start bytes cfg) = runOf bytes cfg

/-- R29, R81, R169: the output of a run is the decoding of its buffer from offset 0, all of it when the run is Done, and up to
the failing offset when it Failed (that this is the offset of the instruction's first byte, and that OUT is kept, are the spec's
own choices D13 and D14, log entry 15). The pseudocode carries its choices D6 (log entry 6), D8 (16) and D12 (13) as well, and
decoding from offset 0 its choice D3 (17). -/
def Obligations.RunOutputDecodesBuffer : Prop :=
  ∀ (bytes : List Byte) (cfg : Cfg),
    (runOf bytes cfg).Inv ∧
    ((runOf bytes cfg).status = .done → (State.start bytes cfg).offsetAfter 0 (runOf bytes cfg).out = some bytes.length) ∧
    (∀ k off, (runOf bytes cfg).status = .failed k off →
      (State.start bytes cfg).offsetAfter 0 (runOf bytes cfg).out = some off ∧ off < bytes.length ∧
      refArm (State.start bytes cfg) off = .raises k)

/-- R88, R67: signedness changes only the values inside displacements and immediates, and zero elision nothing of OUT or
STATUS: two runs on one buffer under one policy end alike, with entries of the same kinds at the same places. -/
def Obligations.SignednessChangesLiteralValuesOnly : Prop :=
  ∀ (bytes : List Byte) (cfg cfg' : Cfg), cfg'.policy = cfg.policy →
    (runOf bytes cfg').status = (runOf bytes cfg).status ∧ (runOf bytes cfg').pos = (runOf bytes cfg).pos ∧
    (runOf bytes cfg').out.map Entry.shape = (runOf bytes cfg).out.map Entry.shape ∧
    (cfg'.signedLiterals = cfg.signedLiterals → (runOf bytes cfg').out = (runOf bytes cfg).out)

/-! The renderer. The spelling of equations, of direct addresses, of negative displacements and of numbers is the spec's own
choice D10, D11, D12, D16, D18 (log entry 13). -/

/-- R17, R120 to R124: the base-equation table, the line of a move with its destination first, and how each kind of operand
renders. -/
def Obligations.OperandText : Prop :=
  ([0#3, 1#3, 2#3, 3#3, 4#3, 5#3, 6#3, 7#3].map fun rm => String.ofList (equationText rm)) =
    ["bx + si", "bx + di", "bp + si", "bp + di", "si", "di", "bp", "bx"] ∧
  ∀ cfg : Cfg,
    (∀ dst src, renderMov cfg dst src =
      ['m', 'o', 'v', ' '] ++ renderOperand cfg dst ++ [',', ' '] ++ renderOperand cfg src) ∧
    (∀ name, renderOperand cfg (.register name) = name.text) ∧
    (∀ v, renderOperand cfg (.immediate v) = dec v) ∧
    (∀ a : Word, renderOperand cfg (.directAddress a) = ['['] ++ dec a.toNat ++ [']']) ∧
    (∀ rm, renderOperand cfg (.effectiveAddress rm none) = ['['] ++ equationText rm ++ [']']) ∧
    (∀ rm v, (cfg.elideZeroDisp = true ∧ v = 0) →
      renderOperand cfg (.effectiveAddress rm (some v)) = ['['] ++ equationText rm ++ [']']) ∧
    (∀ rm v, ¬(cfg.elideZeroDisp = true ∧ v = 0) →
      renderOperand cfg (.effectiveAddress rm (some v)) = ['['] ++ equationText rm ++ [' ', '+', ' '] ++ dec v ++ [']'])

/-- R127: the numeral of a natural number has only digits, spells that number, and has no leading zero but in "0" itself; a
negative number's is a minus sign and the numeral of its negation. -/
def Obligations.DecimalIsShortestNumeral : Prop :=
  (∀ n : Nat, valueOf (dec (n : Int)) = n ∧ IsUnsigned (dec (n : Int))) ∧
  (∀ n : Nat, 0 < n → dec (-(n : Int)) = '-' :: dec (n : Int))

/-- R128: every line of a legal record is a sentence of the grammar, 9 to 26 characters of 7-bit ASCII, at most 25 in unsigned
mode. The grammar's spelling is the spec's own choices D10, D11, D12, D16 and D18 (log entry 13). -/
def Obligations.LinesFollowGrammar : Prop :=
  ∀ (cfg : Cfg) (dst src : Operand), (Entry.mov dst src).Legal cfg →
    IsLine cfg (renderMov cfg dst src) ∧ 9 ≤ (renderMov cfg dst src).length ∧ (renderMov cfg dst src).length ≤ 26 ∧
    (cfg.signedLiterals = false → (renderMov cfg dst src).length ≤ 25) ∧
    ∀ c ∈ renderMov cfg dst src, c.toNat < 128

/-- R132, R124: without zero elision two different records never print the same line; with it, only a displacement of 0 and
none print alike. The brackets that tell an address from an immediate are the spec's own choice D12 (log
entry 13); elision is the configuration's parameter, open in D9. -/
def Obligations.RenderIsInjective : Prop :=
  ∀ (cfg : Cfg) (dst src dst' src' : Operand), renderMov cfg dst src = renderMov cfg dst' src' →
    dst.printed cfg = dst'.printed cfg ∧ src.printed cfg = src'.printed cfg ∧
    (cfg.elideZeroDisp = false → dst = dst' ∧ src = src')

/-- R20, R131 (no text for a marker is the spec's own choice D17): a step that emits a move adds exactly its line, a step that
leaves a marker or ends the run adds none. -/
def Obligations.LinesGrowWithMovesOnly : Prop :=
  ∀ s t : State, step s = .next t →
    (∃ dst src, t.out = s.out ++ [.mov dst src] ∧ t.lines = s.lines ++ [renderMov s.cfg dst src]) ∨
    ((∃ off, t.out = s.out ++ [.unsupported off]) ∧ t.lines = s.lines) ∨ (t.out = s.out ∧ t.lines = s.lines)

/-- R14 (the numbers are the spec's own choice D15, log entry 14): the codes of STATUS and of the failure kinds. -/
def Obligations.StatusCodes : Prop :=
  Status.running.code = 0 ∧ Status.done.code = 1 ∧ (∀ k off, (Status.failed k off).code = 2) ∧
  FailureKind.truncatedInput.code = 1 ∧ FailureKind.unsupportedOpcode.code = 2
end

