-- ==== Sys2Proof/Laws/State.lean ====
section
/-! SUPPORT. One lemma per field per named update of the state. -/

namespace Sys2Proof.Machine

variable (s : State) (e : Entry) (n : Nat) (k : FailureKind) (bytes : List Byte) (cfg : Cfg)

@[simp] theorem State.emit_pos : (s.emit e n).pos = s.pos + n := rfl
@[simp] theorem State.emit_out : (s.emit e n).out = s.out ++ [e] := rfl
@[simp] theorem State.emit_status : (s.emit e n).status = s.status := rfl
@[simp] theorem State.emit_mem : (s.emit e n).mem = s.mem := rfl
@[simp] theorem State.emit_len : (s.emit e n).len = s.len := rfl
@[simp] theorem State.emit_cfg : (s.emit e n).cfg = s.cfg := rfl

@[simp] theorem State.fail_pos : (s.fail k).pos = s.pos := rfl
@[simp] theorem State.fail_out : (s.fail k).out = s.out := rfl
@[simp] theorem State.fail_status : (s.fail k).status = .failed k s.pos := rfl
@[simp] theorem State.fail_mem : (s.fail k).mem = s.mem := rfl
@[simp] theorem State.fail_len : (s.fail k).len = s.len := rfl
@[simp] theorem State.fail_cfg : (s.fail k).cfg = s.cfg := rfl

@[simp] theorem State.finish_pos : s.finish.pos = s.pos := rfl
@[simp] theorem State.finish_out : s.finish.out = s.out := rfl
@[simp] theorem State.finish_status : s.finish.status = .done := rfl
@[simp] theorem State.finish_mem : s.finish.mem = s.mem := rfl
@[simp] theorem State.finish_len : s.finish.len = s.len := rfl
@[simp] theorem State.finish_cfg : s.finish.cfg = s.cfg := rfl

@[simp] theorem State.start_pos : (State.start bytes cfg).pos = 0 := rfl
@[simp] theorem State.start_out : (State.start bytes cfg).out = [] := rfl
@[simp] theorem State.start_status : (State.start bytes cfg).status = .running := rfl
@[simp] theorem State.start_mem : (State.start bytes cfg).mem = Memory.ofBytesFrom 0 bytes := rfl
@[simp] theorem State.start_len : (State.start bytes cfg).len = bytes.length := rfl
@[simp] theorem State.start_cfg : (State.start bytes cfg).cfg = cfg := rfl

@[simp] theorem State.place_pos : (s.place bytes).pos = s.pos := rfl
@[simp] theorem State.place_out : (s.place bytes).out = s.out := rfl
@[simp] theorem State.place_status : (s.place bytes).status = .running := rfl
@[simp] theorem State.place_mem : (s.place bytes).mem = Memory.writeBytes s.mem s.pos bytes := rfl
@[simp] theorem State.place_len : (s.place bytes).len = max s.len (s.pos + bytes.length) := rfl
@[simp] theorem State.place_cfg : (s.place bytes).cfg = s.cfg := rfl

/-- The reset state of the interface is a reset on an empty buffer. -/
theorem State.reset_eq_start : State.reset = State.start [] Cfg.atReset := rfl

end Sys2Proof.Machine
end

