-- ==== Sys2Proof/Laws/Decode.lean ====
section
/-! SUPPORT. The fields of the bytes the encoder builds, and the decoder on them. -/

namespace Sys2Proof

@[simp] theorem classify_rmFirstByte (d w : Bool) : classify (rmFirstByte d w) = .rm := by
  revert d w; decide
@[simp] theorem dBit_rmFirstByte (d w : Bool) : dBit (rmFirstByte d w) = d := by
  revert d w; decide
@[simp] theorem wBitRm_rmFirstByte (d w : Bool) : wBitRm (rmFirstByte d w) = w := by
  revert d w; decide
@[simp] theorem classify_riFirstByte (w : Bool) (reg : Sel) : classify (riFirstByte w reg) = .ri := by
  revert w reg; decide
@[simp] theorem wBitRi_riFirstByte (w : Bool) (reg : Sel) : wBitRi (riFirstByte w reg) = w := by
  revert w reg; decide
@[simp] theorem regFieldRi_riFirstByte (w : Bool) (reg : Sel) : regFieldRi (riFirstByte w reg) = reg := by
  revert w reg; decide
@[simp] theorem modField_modRmByte (md : BitVec 2) (reg rm : Sel) : modField (modRmByte md reg rm) = md := by
  revert md reg rm; decide
@[simp] theorem regField_modRmByte (md : BitVec 2) (reg rm : Sel) : regField (modRmByte md reg rm) = reg := by
  revert md reg rm; decide
@[simp] theorem rmField_modRmByte (md : BitVec 2) (reg rm : Sel) : rmField (modRmByte md reg rm) = rm := by
  revert md reg rm; decide

/-- R55: the ModRM byte is its three fields. -/
theorem modRmByte_fields (b1 : Byte) : modRmByte (modField b1) (regField b1) (rmField b1) = b1 := by
  revert b1; decide

theorem rmFirstByte_fields {b0 : Byte} (h : classify b0 = .rm) : rmFirstByte (dBit b0) (wBitRm b0) = b0 := by
  revert b0; decide

theorem riFirstByte_fields {b0 : Byte} (h : classify b0 = .ri) : riFirstByte (wBitRi b0) (regFieldRi b0) = b0 := by
  revert b0; decide

/-- The table's ranges (R64) and the classifier's patterns (R52) say the same. -/
theorem classify_unsupported_iff (b0 : Byte) : classify b0 = .unsupported ↔ b0.recognised = false := by
  revert b0; decide

@[simp] theorem littleEndian_wordBytes (v : Word) : littleEndian (v.extractLsb' 0 8) (v.extractLsb' 8 8) = v := by
  unfold littleEndian
  ext i hi
  simp only [BitVec.getElem_append, BitVec.getElem_extractLsb']
  split
  · simp [BitVec.getLsbD_eq_getElem, hi]
  · rw [show 8 + (i - 8) = i by omega, BitVec.getLsbD_eq_getElem]

theorem getLsbD_littleEndian (lo hi : Byte) (i : Nat) :
    (littleEndian lo hi).getLsbD i = if i < 8 then lo.getLsbD i else hi.getLsbD (i - 8) :=
  BitVec.getLsbD_append

theorem wordBytes_littleEndian (lo hi : Byte) : wordBytes (littleEndian lo hi) = [lo, hi] := by
  have h0 : (littleEndian lo hi).extractLsb' 0 8 = lo := by
    ext i h; simp [getLsbD_littleEndian, h]
  have h8 : (littleEndian lo hi).extractLsb' 8 8 = hi := by
    ext i h; simp [getLsbD_littleEndian, BitVec.getLsbD_eq_getElem h]
  rw [wordBytes, h0, h8]

/-- R35: the low byte counts once, the high byte 256 times. -/
theorem toNat_littleEndian (lo hi : Byte) : (littleEndian lo hi).toNat = lo.toNat + 256 * hi.toNat := by
  unfold littleEndian
  rw [BitVec.toNat_append, Nat.shiftLeft_eq, Nat.mul_comm hi.toNat, ← Nat.two_pow_add_eq_or_of_lt lo.isLt]
  omega

/-- An encoding is as long as the length function says. -/
theorem encode_length (i : Instr) : (encode i).length = instrLength i := by
  cases i <;> rfl

theorem instrLength_pos (i : Instr) : 0 < instrLength i := by cases i <;> simp [instrLength]

theorem instrLength_le (i : Instr) : instrLength i ≤ Machine.maxLength := by cases i <;> simp [instrLength, Machine.maxLength]

end Sys2Proof
end

