-- ==== Sys2Proof/Laws/Memory.lean ====
section
/-! SUPPORT. The cell list behind the buffer: every operation keeps the canonical form, and reads see writes. -/

namespace Sys2Proof.Machine

theorem Memory.wfFrom_cons {lo a : Nat} {v : Byte} {m : Memory} :
    Memory.wfFrom lo ((a, v) :: m) = true ↔ lo ≤ a ∧ v ≠ 0#8 ∧ Memory.wfFrom (a + 1) m = true := by
  simp [Memory.wfFrom, and_assoc]

/-- A canonical list stays canonical under a smaller lower bound. -/
theorem Memory.wfFrom_le {lo lo' : Nat} {m : Memory} (h : Memory.wfFrom lo m = true) (hle : lo' ≤ lo) :
    Memory.wfFrom lo' m = true := by
  match m with
  | [] => rfl
  | (a, v) :: m =>
    rw [Memory.wfFrom_cons] at h ⊢
    exact ⟨hle.trans h.1, h.2⟩

theorem Memory.wfFrom_write {lo a : Nat} {v : Byte} {m : Memory} (h : Memory.wfFrom lo m = true) (hlo : lo ≤ a) :
    Memory.wfFrom lo (Memory.write m a v) = true := by
  induction m generalizing lo with
  | nil =>
    unfold Memory.write
    split
    · rfl
    · rw [Memory.wfFrom_cons]; exact ⟨hlo, ‹_›, rfl⟩
  | cons c m ih =>
    obtain ⟨b, x⟩ := c
    have hc := Memory.wfFrom_cons.mp h
    unfold Memory.write
    split
    · split
      · exact h
      · rw [Memory.wfFrom_cons, Memory.wfFrom_cons]
        exact ⟨hlo, ‹_›, by omega, hc.2⟩
    · split
      · split
        · exact Memory.wfFrom_le hc.2.2 (by omega)
        · rw [Memory.wfFrom_cons]; exact ⟨hc.1, ‹_›, hc.2.2⟩
      · rw [Memory.wfFrom_cons]
        exact ⟨hc.1, hc.2.1, ih hc.2.2 (by omega)⟩

theorem Memory.wf_write {m : Memory} (h : m.wf = true) (a : Nat) (v : Byte) : (Memory.write m a v).wf = true :=
  Memory.wfFrom_write h (Nat.zero_le a)

theorem Memory.wf_writeBytes {m : Memory} (h : m.wf = true) (a : Nat) (bytes : List Byte) :
    (Memory.writeBytes m a bytes).wf = true := by
  induction bytes generalizing m a with
  | nil => exact h
  | cons b bs ih => exact ih (Memory.wf_write h a b) (a + 1)

theorem Memory.wfFrom_ofBytesFrom (k : Nat) (bytes : List Byte) :
    Memory.wfFrom k (Memory.ofBytesFrom k bytes) = true := by
  induction bytes generalizing k with
  | nil => rfl
  | cons b bs ih =>
    unfold Memory.ofBytesFrom
    split
    · exact Memory.wfFrom_le (ih (k + 1)) (by omega)
    · rw [Memory.wfFrom_cons]; exact ⟨le_rfl, ‹_›, ih (k + 1)⟩

theorem Memory.wf_ofBytes (bytes : List Byte) : (Memory.ofBytesFrom 0 bytes).wf = true :=
  Memory.wfFrom_ofBytesFrom 0 bytes

/-- The memory of the reset state is canonical. -/
theorem Memory.wf_reset : State.reset.mem.wf = true := rfl

/-- Below the first listed offset every byte is 0. -/
theorem Memory.read_below {lo a : Nat} {m : Memory} (h : Memory.wfFrom lo m = true) (ha : a < lo) :
    Memory.read m a = 0#8 := by
  induction m generalizing lo with
  | nil => rfl
  | cons c m ih =>
    obtain ⟨b, x⟩ := c
    have hc := Memory.wfFrom_cons.mp h
    rw [Memory.read, if_neg (by omega)]
    exact ih hc.2.2 (by omega)

/-- A canonical list reads back what was written, and every other offset as before. -/
theorem Memory.read_write {lo a a' : Nat} {v : Byte} {m : Memory} (h : Memory.wfFrom lo m = true) :
    Memory.read (Memory.write m a v) a' = if a' = a then v else Memory.read m a' := by
  induction m generalizing lo with
  | nil =>
    unfold Memory.write
    by_cases hv : v = 0#8 <;> by_cases ha : a' = a <;> simp [Memory.read, hv, ha]
  | cons c m ih =>
    obtain ⟨b, x⟩ := c
    have hc := Memory.wfFrom_cons.mp h
    unfold Memory.write
    by_cases hlt : a < b
    · rw [if_pos hlt]
      by_cases hv : v = 0#8
      · rw [if_pos hv]
        split
        · next ha => rw [ha, hv, Memory.read, if_neg (by omega)]; exact Memory.read_below hc.2.2 (by omega)
        · rfl
      · rw [if_neg hv, Memory.read]
    · rw [if_neg hlt]
      by_cases heq : a = b
      · rw [if_pos heq]
        by_cases hv : v = 0#8
        · rw [if_pos hv, Memory.read]
          by_cases ha : a' = a
          · rw [if_pos ha, hv]; exact Memory.read_below hc.2.2 (by omega)
          · rw [if_neg ha, if_neg (by omega)]
        · rw [if_neg hv, Memory.read, Memory.read]
          by_cases ha : a' = a
          · rw [if_pos (by omega), if_pos ha]
          · rw [if_neg (by omega), if_neg ha, if_neg (by omega)]
      · rw [if_neg heq, Memory.read, Memory.read]
        by_cases hb : a' = b
        · rw [if_pos hb, if_pos hb, if_neg (by omega)]
        · rw [if_neg hb, if_neg hb, ih hc.2.2]

/-- Where a byte sequence was placed, its bytes are read. -/
theorem Memory.read_ofBytesFrom {k i : Nat} {bytes : List Byte} (h : i < bytes.length) :
    Memory.read (Memory.ofBytesFrom k bytes) (k + i) = bytes[i] := by
  induction bytes generalizing k i with
  | nil => simp at h
  | cons b bs ih =>
    unfold Memory.ofBytesFrom
    cases i with
    | zero =>
      split
      · next hb => rw [Memory.read_below (Memory.wfFrom_ofBytesFrom (k + 1) bs) (by omega)]; simp [hb]
      · simp [Memory.read]
    | succ i =>
      have := ih (k := k + 1) (i := i) (by simpa using h)
      rw [show k + 1 + i = k + (i + 1) by omega] at this
      split
      · simpa using this
      · rw [Memory.read, if_neg (by omega)]; simpa using this

/-- Every listed offset of a placed byte sequence lies where it was placed. -/
theorem Memory.ofBytesFrom_bounds {k : Nat} {bytes : List Byte} :
    ∀ c ∈ Memory.ofBytesFrom k bytes, k ≤ c.1 ∧ c.1 < k + bytes.length := by
  induction bytes generalizing k with
  | nil => simp [Memory.ofBytesFrom]
  | cons b bs ih =>
    intro c hc
    rw [List.length_cons]
    unfold Memory.ofBytesFrom at hc
    split at hc
    · have := ih c hc; omega
    · rcases List.mem_cons.mp hc with rfl | hc
      · simp
      · have := ih c hc; omega

@[simp] theorem Memory.readBytes_length (m : Memory) (a n : Nat) : (Memory.readBytes m a n).length = n := by
  induction n generalizing a with
  | zero => rfl
  | succ n ih => simp [Memory.readBytes, ih]

theorem Memory.readBytes_getElem {m : Memory} {a n i : Nat} (h : i < (Memory.readBytes m a n).length) :
    (Memory.readBytes m a n)[i] = Memory.read m (a + i) := by
  induction n generalizing a i with
  | zero => simp [Memory.readBytes] at h
  | succ n ih =>
    cases i with
    | zero => simp [Memory.readBytes]
    | succ i =>
      have := ih (a := a + 1) (i := i) (by simpa [Memory.readBytes] using h)
      simpa [Memory.readBytes, show a + 1 + i = a + (i + 1) by omega] using this

end Sys2Proof.Machine
end

