-- ==== Sys2Proof/Laws/Ops.lean ====
section
/-! SUPPORT. What each shared operation of the step can do, said once. -/

namespace Sys2Proof.Machine

theorem State.emitMov_fits {s : State} {n : Nat} (h : s.pos + n ≤ s.len) (dst src : Operand) :
    s.emitMov n dst src = .next (s.emit (.mov dst src) n) := if_pos h

theorem State.emitMov_truncates {s : State} {n : Nat} (h : s.len < s.pos + n) (dst src : Operand) :
    s.emitMov n dst src = .next (s.fail .truncatedInput) := if_neg (by omega)

/-- `emitMov` answers a next state: the failure where the bytes do not fit, the emitted record where they do. -/
theorem State.emitMov_next {s t : State} {n : Nat} {dst src : Operand} (h : s.emitMov n dst src = .next t) :
    (s.len < s.pos + n ∧ t = s.fail .truncatedInput) ∨ (s.pos + n ≤ s.len ∧ t = s.emit (.mov dst src) n) := by
  unfold State.emitMov at h
  split at h <;> cases h
  · exact .inr ⟨‹_›, rfl⟩
  · exact .inl ⟨by omega, rfl⟩

/-- The unsupported arm answers the failure under `Abort` and the marker under `Skip`. -/
theorem execUnsupported_next {b0 : Byte} {s t : State} (h : execUnsupported b0 s = .next t) :
    (s.cfg.policy = .abort ∧ t = s.fail .unsupportedOpcode) ∨
    (s.cfg.policy = .skip ∧ t = s.emit (.unsupported s.pos) 1) := by
  unfold execUnsupported at h
  split at h <;> cases h
  · exact .inl ⟨‹_›, rfl⟩
  · exact .inr ⟨‹_›, rfl⟩

/-- What any instruction does: it raises at the cursor, or it emits one entry and moves past its own length. -/
theorem exec_next {i : Instr} {s t : State} (h : exec i s = .next t) :
    (∃ k, t = s.fail k) ∨ (∃ e, t = s.emit e (instrLength i)) := by
  cases i with
  | unsupported b0 =>
    rcases execUnsupported_next (b0 := b0) h with ⟨-, rfl⟩ | ⟨-, rfl⟩
    · exact .inl ⟨_, rfl⟩
    · exact .inr ⟨_, rfl⟩
  | _ =>
    rcases State.emitMov_next h with ⟨-, rfl⟩ | ⟨-, rfl⟩
    · exact .inl ⟨_, rfl⟩
    · exact .inr ⟨_, rfl⟩

theorem State.window_length (s : State) : s.window.length = min maxLength (s.len - s.pos) := by
  simp [State.window]

/-- The window shows the buffer's bytes from the cursor on. -/
theorem State.window_getElem {s : State} {k : Nat} (h : k < s.window.length) :
    s.readByte? (s.pos + k) = some s.window[k] := by
  have hk : k < min maxLength (s.len - s.pos) := by rw [← s.window_length]; exact h
  simp only [State.window, Memory.readBytes_getElem]
  exact if_pos (by omega)

theorem State.readByte?_eq_some {s : State} {a : Nat} {b : Byte} :
    s.readByte? a = some b ↔ a < s.len ∧ Memory.read s.mem a = b := by
  unfold State.readByte?; split <;> simp_all

end Sys2Proof.Machine
end

