-- ==== Sys2Proof/Laws/PerInstr.lean ====
section
/-! SUPPORT. Statements for all instructions, one lemma per constructor. -/

namespace Sys2Proof.Laws.EncodedLength

/-- R63: an instruction's encoding has the length of its row, at least one byte and at most four. -/
def Statement (i : Instr) : Prop :=
  (encode i).length = instrLength i ∧ 0 < instrLength i ∧ instrLength i ≤ 4

theorem movRegToRm (w : Bool) (reg rm : Sel) : Statement (.movRegToRm w reg rm) := 
  ⟨rfl, by simp [instrLength], by simp [instrLength]⟩
theorem movRmToReg (w : Bool) (reg rm : Sel) : Statement (.movRmToReg w reg rm) := 
  ⟨rfl, by simp [instrLength], by simp [instrLength]⟩
theorem movRegToDirect (w : Bool) (reg : Sel) (addr : Word) : Statement (.movRegToDirect w reg addr) :=
  ⟨rfl, by simp [instrLength], by simp [instrLength]⟩
theorem movDirectToReg (w : Bool) (reg : Sel) (addr : Word) : Statement (.movDirectToReg w reg addr) :=
  ⟨rfl, by simp [instrLength], by simp [instrLength]⟩
theorem movRegToMem (w : Bool) (reg rm : Sel) : Statement (.movRegToMem w reg rm) := 
  ⟨rfl, by simp [instrLength], by simp [instrLength]⟩
theorem movMemToReg (w : Bool) (reg rm : Sel) : Statement (.movMemToReg w reg rm) := 
  ⟨rfl, by simp [instrLength], by simp [instrLength]⟩
theorem movRegToMemDisp8 (w : Bool) (reg rm : Sel) (disp : Byte) : Statement (.movRegToMemDisp8 w reg rm disp) :=
  ⟨rfl, by simp [instrLength], by simp [instrLength]⟩
theorem movMemDisp8ToReg (w : Bool) (reg rm : Sel) (disp : Byte) : Statement (.movMemDisp8ToReg w reg rm disp) :=
  ⟨rfl, by simp [instrLength], by simp [instrLength]⟩
theorem movRegToMemDisp16 (w : Bool) (reg rm : Sel) (disp : Word) : Statement (.movRegToMemDisp16 w reg rm disp) :=
  ⟨rfl, by simp [instrLength], by simp [instrLength]⟩
theorem movMemDisp16ToReg (w : Bool) (reg rm : Sel) (disp : Word) : Statement (.movMemDisp16ToReg w reg rm disp) :=
  ⟨rfl, by simp [instrLength], by simp [instrLength]⟩
theorem movImm8ToReg (reg : Sel) (imm : Byte) : Statement (.movImm8ToReg reg imm) :=
  ⟨rfl, by simp [instrLength], by simp [instrLength]⟩
theorem movImm16ToReg (reg : Sel) (imm : Word) : Statement (.movImm16ToReg reg imm) :=
  ⟨rfl, by simp [instrLength], by simp [instrLength]⟩
theorem unsupported (b0 : Byte) : Statement (.unsupported b0) :=
  ⟨rfl, by simp [instrLength], by simp [instrLength]⟩

end Sys2Proof.Laws.EncodedLength
end

