-- ==== Sys2Proof/Tests/Slice0.lean ====
section
/-! SUPPORT. Tests. Expected results are the rows of 95_test_vectors.md named beside them; a `witness_` theorem shows values that
meet all hypotheses of the obligation it names. -/

namespace Sys2Proof.Tests

open Sys2Proof.Machine

def signedSkip : Cfg := { signedLiterals := true, policy := .skip, elideZeroDisp := false }
def signedAbort : Cfg := { signedLiterals := true, policy := .abort, elideZeroDisp := false }
def unsignedAbort : Cfg := { signedLiterals := false, policy := .abort, elideZeroDisp := false }
def signedElide : Cfg := { signedLiterals := true, policy := .abort, elideZeroDisp := true }

/-- The next state of an outcome, if it is one. -/
def nextOf : Result → Option State
  | .next t => some t
  | .fault _ => none
  | .refused _ => none

/-- After one step from reset on these bytes: the text lines, POS and STATUS. -/
def afterStep (cfg : Cfg) (bytes : List Byte) : Option (List String × Nat × Status) :=
  (nextOf (step (State.start bytes cfg))).map fun t => (t.lines.map String.ofList, t.pos, t.status)

/-! WellFormed refuses an ill-formed term for each of its checks. -/

theorem smoke_wf_movRegToMem_bp : (Instr.movRegToMem true 3#3 6#3).wf = false := by decide
theorem smoke_wf_movMemToReg_bp : (Instr.movMemToReg false 0#3 6#3).wf = false := by decide
theorem smoke_wf_unsupported_rm : (Instr.unsupported 0x88#8).wf = false ∧ (Instr.unsupported 0x8B#8).wf = false := by decide
theorem smoke_wf_unsupported_ri : (Instr.unsupported 0xB0#8).wf = false ∧ (Instr.unsupported 0xBF#8).wf = false := by decide

/-! Each constructor's decoding, on words written out bit by bit from R51 and R56. -/

theorem decode_movRegToRm : decode [0b10001001#8, 0b11011001#8] = .instr (.movRegToRm true 0b011#3 0b001#3) [] := by decide
theorem decode_movRmToReg : decode [0b10001010#8, 0b11001000#8] = .instr (.movRmToReg false 0b001#3 0b000#3) [] := by decide
theorem decode_movRegToDirect : decode [0b10001001#8, 0b00010110#8, 0b11111110#8, 0b11111111#8] =
    .instr (.movRegToDirect true 0b010#3 0xFFFE#16) [] := by decide
theorem decode_movDirectToReg : decode [0b10001011#8, 0b00011110#8, 0b10000010#8, 0b00001101#8] =
    .instr (.movDirectToReg true 0b011#3 0x0D82#16) [] := by decide
theorem decode_movRegToMem : decode [0b10001000#8, 0b00001010#8] = .instr (.movRegToMem false 0b001#3 0b010#3) [] := by decide
theorem decode_movMemToReg : decode [0b10001011#8, 0b00011011#8] = .instr (.movMemToReg true 0b011#3 0b011#3) [] := by decide
theorem decode_movRegToMemDisp8 : decode [0b10001000#8, 0b01101110#8, 0b00000001#8] =
    .instr (.movRegToMemDisp8 false 0b101#3 0b110#3 1#8) [] := by decide
theorem decode_movMemDisp8ToReg : decode [0b10001011#8, 0b01000001#8, 0b11011011#8] =
    .instr (.movMemDisp8ToReg true 0b000#3 0b001#3 0xDB#8) [] := by decide
theorem decode_movRegToMemDisp16 : decode [0b10001001#8, 0b10001100#8, 0b11010100#8, 0b11111110#8] =
    .instr (.movRegToMemDisp16 true 0b001#3 0b100#3 0xFED4#16) [] := by decide
theorem decode_movMemDisp16ToReg : decode [0b10001010#8, 0b10000000#8, 0b10000111#8, 0b00010011#8] =
    .instr (.movMemDisp16ToReg false 0b000#3 0b000#3 0x1387#16) [] := by decide
theorem decode_movImm8ToReg : decode [0b10110101#8, 0b11110100#8] = .instr (.movImm8ToReg 0b101#3 0xF4#8) [] := by decide
theorem decode_movImm16ToReg : decode [0b10111101#8, 0b00000000#8, 0b00000001#8] =
    .instr (.movImm16ToReg 0b101#3 0x0100#16) [] := by decide
theorem decode_unsupported : decode [0b10001100#8, 0b11011000#8] = .instr (.unsupported 0b10001100#8) [0b11011000#8] := by decide

/-! One step of each instruction. -/

/-- S1. -/
theorem test_movRegToRm : afterStep signedAbort [0x89#8, 0xD9#8] = some (["mov cx, bx"], 2, .running) := by decide
/-- Table 2.2, `8A E7`. -/
theorem test_movRmToReg : afterStep signedAbort [0x8A#8, 0xE7#8] = some (["mov ah, bh"], 2, .running) := by decide
/-- Table 2.4, `89 16 FF FF`: never signed. -/
theorem test_movRegToDirect : afterStep signedAbort [0x89#8, 0x16#8, 0xFF#8, 0xFF#8] =
    some (["mov [65535], dx"], 4, .running) := by decide
/-- S4 under elision: a direct address of 0 is never elided. -/
theorem test_movDirectToReg : afterStep signedElide [0x8B#8, 0x1E#8, 0#8, 0#8] = some (["mov bx, [0]"], 4, .running) := by decide
/-- R102, `89 09`. -/
theorem test_movRegToMem : afterStep signedAbort [0x89#8, 0x09#8] = some (["mov [bx + di], cx"], 2, .running) := by decide
/-- S3. -/
theorem test_movMemToReg : afterStep signedAbort [0x8A#8, 0#8] = some (["mov al, [bx + si]"], 2, .running) := by decide
/-- Table 2.4, `88 7F 80`. -/
theorem test_movRegToMemDisp8 : afterStep signedAbort [0x88#8, 0x7F#8, 0x80#8] = some (["mov [bx + -128], bh"], 3, .running) := by
  decide
/-- Table 2.4, `88 7E 00` under elision. -/
theorem test_movRegToMemDisp8_elided : afterStep signedElide [0x88#8, 0x7E#8, 0#8] = some (["mov [bp], bh"], 3, .running) := by
  decide
/-- P2 offset 41, `8B 41 DB`, signed and unsigned. -/
theorem test_movMemDisp8ToReg :
    afterStep signedAbort [0x8B#8, 0x41#8, 0xDB#8] = some (["mov ax, [bx + di + -37]"], 3, .running) ∧
    afterStep unsignedAbort [0x8B#8, 0x41#8, 0xDB#8] = some (["mov ax, [bx + di + 219]"], 3, .running) := by decide
/-- P2 offset 44, `89 8C D4 FE`, signed and unsigned. -/
theorem test_movRegToMemDisp16 :
    afterStep signedAbort [0x89#8, 0x8C#8, 0xD4#8, 0xFE#8] = some (["mov [si + -300], cx"], 4, .running) ∧
    afterStep unsignedAbort [0x89#8, 0x8C#8, 0xD4#8, 0xFE#8] = some (["mov [si + 65236], cx"], 4, .running) := by decide
/-- Table 2.3, `8B 96 34 12`: `bp` with a displacement. -/
theorem test_movMemDisp16ToReg : afterStep signedAbort [0x8B#8, 0x96#8, 0x34#8, 0x12#8] =
    some (["mov dx, [bp + 4660]"], 4, .running) := by decide
/-- Table 2.5, `B5 F4`, signed and unsigned. -/
theorem test_movImm8ToReg :
    afterStep signedAbort [0xB5#8, 0xF4#8] = some (["mov ch, -12"], 2, .running) ∧
    afterStep unsignedAbort [0xB5#8, 0xF4#8] = some (["mov ch, 244"], 2, .running) := by decide
/-- Table 2.5, `BA 94 F0` (S9), signed and unsigned. -/
theorem test_movImm16ToReg :
    afterStep signedAbort [0xBA#8, 0x94#8, 0xF0#8] = some (["mov dx, -3948"], 3, .running) ∧
    afterStep unsignedAbort [0xBA#8, 0x94#8, 0xF0#8] = some (["mov dx, 61588"], 3, .running) := by decide
/-- Table 2.7, `C0` under `Abort`: never `TruncatedInput`. -/
theorem test_unsupported_abort : afterStep signedAbort [0xC0#8] = some ([], 0, .failed .unsupportedOpcode 0) := by decide
/-- Table 2.7, `8C D8` under `Skip`, first step. -/
theorem test_unsupported_skip : nextOf (step (State.start [0x8C#8, 0xD8#8] signedSkip)) =
    some { State.start [0x8C#8, 0xD8#8] signedSkip with out := [.unsupported 0], pos := 1 } := by decide
/-- Table 2.6: the empty buffer, and one of two displacement bytes (S5). -/
theorem test_ends : afterStep signedAbort [] = some ([], 0, .done) ∧
    afterStep signedSkip [0x8B#8, 0x1E#8, 0#8] = some ([], 0, .failed .truncatedInput 0) := by decide

/-! The pipeline's probe: a table word is decoded and is the first instruction to run from the reset state. -/

theorem test_tableWord : decodeTableWord 16 0x8A06 = some (.movDirectToReg false 0#3 0#16) ∧
    decodeTableWord 8 0xB8 = some (.movImm16ToReg 0#3 0#16) ∧ decodeTableWord 8 0 = some (.unsupported 0#8) := by decide
theorem test_withFetchWord : step (State.reset.withFetchWord 16 0x8A80) =
    exec (.movMemDisp16ToReg false 0#3 0#3 0#16) (State.reset.withFetchWord 16 0x8A80) := rfl
theorem test_withFetchWord_pos : (nextOf (step (State.reset.withFetchWord 8 0xB0))).map (fun t => (t.pos, t.out)) =
    some (2, [.mov (.register .al) (.immediate 0)]) := by decide

/-! Witnesses. -/

/-- The hypotheses of the four cases of `MovRule`, at the boundary: exactly the bytes, one byte fewer, and the first byte alone. -/
abbrev MovRuleWitness (n : Nat) (bytes : List Byte) : Prop :=
  (State.start bytes signedAbort).pos + n = (State.start bytes signedAbort).len ∧
  (State.start (bytes.take (n - 1)) signedAbort).len + 1 = (State.start (bytes.take (n - 1)) signedAbort).pos + n ∧
  ((State.start bytes signedAbort).status = .running ∧ (State.start bytes signedAbort).Holds 0 bytes) ∧
  ((State.start (bytes.take (n - 1)) signedAbort).status = .running ∧ 0 < n - 1 ∧ n - 1 < n ∧
    (State.start (bytes.take (n - 1)) signedAbort).len = 0 + (n - 1) ∧
    (State.start (bytes.take (n - 1)) signedAbort).Holds 0 (bytes.take (n - 1))) ∧
  ((State.start (bytes.take 1) signedAbort).status = .running ∧ 1 < n ∧
    (State.start (bytes.take 1) signedAbort).len = 0 + 1 ∧ (State.start (bytes.take 1) signedAbort).Holds 0 (bytes.take 1))

theorem witness_MovRegToRmEmitsOrTruncates : MovRuleWitness 2 [0x89#8, 0xD9#8] := by decide
theorem witness_MovRmToRegEmitsOrTruncates : MovRuleWitness 2 [0x8A#8, 0xE7#8] := by decide
theorem witness_MovRegToMemEmitsOrTruncates : (5#3 : Sel) ≠ 0b110#3 ∧ (7#3 : Sel) ≠ 0b110#3 ∧ MovRuleWitness 2 [0x89#8, 0x0F#8] := by
  decide
theorem witness_MovMemToRegEmitsOrTruncates : (5#3 : Sel) ≠ 0b110#3 ∧ (7#3 : Sel) ≠ 0b110#3 ∧ MovRuleWitness 2 [0x8A#8, 0x05#8] := by
  decide
theorem witness_MovRegToDirectEmitsOrTruncates : MovRuleWitness 4 [0x89#8, 0x16#8, 0xFF#8, 0xFF#8] := by decide
theorem witness_MovDirectToRegEmitsOrTruncates : MovRuleWitness 4 [0x8B#8, 0x1E#8, 0#8, 0#8] := by decide
theorem witness_MovRegToMemDisp8EmitsOrTruncates : MovRuleWitness 3 [0x88#8, 0x6E#8, 0#8] := by decide
theorem witness_MovMemDisp8ToRegEmitsOrTruncates : MovRuleWitness 3 [0x8B#8, 0x41#8, 0xDB#8] := by decide
theorem witness_MovRegToMemDisp16EmitsOrTruncates : MovRuleWitness 4 [0x89#8, 0x8C#8, 0xD4#8, 0xFE#8] := by decide
theorem witness_MovMemDisp16ToRegEmitsOrTruncates : MovRuleWitness 4 [0x8A#8, 0x80#8, 0x87#8, 0x13#8] := by decide
theorem witness_MovImm8ToRegEmitsOrTruncates : MovRuleWitness 2 [0xB1#8, 0x0C#8] := by decide
theorem witness_MovImm16ToRegEmitsOrTruncates : MovRuleWitness 3 [0xB8#8, 0x34#8, 0x12#8] := by decide

theorem witness_UnsupportedByteAborts : (State.start [0x8C#8] signedAbort).cfg.policy = .abort ∧
    (State.start [0x8C#8] signedAbort).status = .running ∧
    (State.start [0x8C#8] signedAbort).readByte? 0 = some 0x8C#8 ∧ classify 0x8C#8 = .unsupported := by decide
theorem witness_UnsupportedByteSkips : (State.start [0xC0#8] signedSkip).cfg.policy = .skip ∧
    (State.start [0xC0#8] signedSkip).status = .running ∧
    (State.start [0xC0#8] signedSkip).readByte? 0 = some 0xC0#8 ∧ classify 0xC0#8 = .unsupported := by decide

theorem witness_DecodeOfEncodeIsIdentity : (Instr.movRegToMem true 0#3 7#3).wf = true ∧ (Instr.movMemToReg true 0#3 5#3).wf = true ∧
    (Instr.unsupported 0x87#8).wf = true ∧ (Instr.unsupported 0xC0#8).wf = true := by decide
theorem witness_DecodedBytesAreItsEncoding : decode [0x8A#8, 0x40#8, 0#8, 0x90#8] = .instr (.movMemDisp8ToReg false 0#3 0#3 0#8) [0x90#8] := by
  decide
theorem witness_FirstByteFields : classify 0x88#8 = .rm ∧ classify 0x8B#8 = .rm ∧ classify 0xB0#8 = .ri ∧ classify 0xBF#8 = .ri := by
  decide
/-- Each clause of the trail, also for `ModRmByteFields`: register, direct, no, 8-bit and 16-bit displacement. -/
theorem witness_RmFormConsumesItsTrail : classify 0x8B#8 = .rm ∧ (0b111#3 : Sel) ≠ 0b110#3 ∧
    decode [0x8B#8, 0xC0#8] = .instr (.movRmToReg true 0#3 0#3) [] ∧
    decode [0x8B#8, 0x06#8, 1#8, 2#8] = .instr (.movDirectToReg true 0#3 0x0201#16) [] ∧
    decode [0x8B#8, 0x07#8] = .instr (.movMemToReg true 0#3 7#3) [] ∧
    decode [0x8B#8, 0x46#8, 1#8] = .instr (.movMemDisp8ToReg true 0#3 6#3 1#8) [] ∧
    decode [0x8B#8, 0x86#8, 1#8, 2#8] = .instr (.movMemDisp16ToReg true 0#3 6#3 0x0201#16) [] := by decide
theorem witness_LengthFromFirstTwoBytes : lengthOf 0x8B#8 0x06#8 = some 4 ∧
    decode [0x8B#8, 0x06#8, 1#8, 2#8] = .instr (.movDirectToReg true 0#3 0x0201#16) [] ∧
    lengthOf 0xB0#8 0#8 = some 2 ∧ decode [0xB0#8, 0#8] = .instr (.movImm8ToReg 0#3 0#8) [] ∧
    lengthOf 0xB8#8 0#8 = some 3 ∧ decode [0xB8#8, 0#8, 1#8] = .instr (.movImm16ToReg 0#3 0x0100#16) [] ∧
    lengthOf 0x8C#8 0#8 = none := by decide
/-- Both sides of the equivalence, for each clause. -/
theorem witness_TruncatedExactlyWhenBytesMissing : decode [0x89#8] = .truncated ∧ decode [0x8A#8, 0x80#8, 1#8] = .truncated ∧
    decode [0xB0#8] = .truncated ∧ decode [0xB8#8, 1#8] = .truncated := by decide
theorem witness_LiteralInterpretation : signedAbort.signedLiterals = true ∧ unsignedAbort.signedLiterals = false := by decide

/-- The states of `RmFormOperands` and `DirectAddressForm`: an RM first byte and ModRM byte at the cursor, and a step that emits. -/
abbrev RmFormWitness (b0 b1 : Byte) (rest : List Byte) : Prop :=
  (State.start (b0 :: b1 :: rest) signedAbort).status = .running ∧
  (State.start (b0 :: b1 :: rest) signedAbort).Holds 0 [b0, b1] ∧ classify b0 = .rm ∧
  (nextOf (step (State.start (b0 :: b1 :: rest) signedAbort))).map State.status = some .running

theorem witness_RmFormOperands :
    (modField 0xD9#8 = 0b11#2 ∧ RmFormWitness 0x89#8 0xD9#8 []) ∧
    (modField 0x0F#8 = 0b00#2 ∧ rmField 0x0F#8 ≠ 0b110#3 ∧ RmFormWitness 0x8B#8 0x0F#8 []) ∧
    (modField 0x6E#8 = 0b01#2 ∧ RmFormWitness 0x88#8 0x6E#8 [0#8]) ∧
    (modField 0x80#8 = 0b10#2 ∧ RmFormWitness 0x8A#8 0x80#8 [0x87#8, 0x13#8]) := by decide
theorem witness_DirectAddressForm : modField 0x1E#8 = 0b00#2 ∧ rmField 0x1E#8 = 0b110#3 ∧
    RmFormWitness 0x8B#8 0x1E#8 [0x82#8, 0x0D#8] := by decide

/-- A step that answers a next state, for `StepFrame`, `CursorAdvancesByInstructionLength`, `CursorFitsAnyWidthThatHoldsLen`,
`StepKeepsRecordsLegal`, `StepKeepsOutDecodesBuffer`, `StepRefinesPseudocode`, `StepKeepsInvariant` (whose invariant the reset
state has by `InvariantHoldsAfterReset`) and `LinesGrowWithMovesOnly`: a move, a marker, and the end. -/
theorem witness_step_next :
    (State.start [0xB1#8, 0x0C#8] signedAbort).status = .running ∧ (State.start [0xB1#8, 0x0C#8] signedAbort).len < 2 ^ 2 ∧
    (nextOf (step (State.start [0xB1#8, 0x0C#8] signedAbort))).map (fun t => (t.pos, t.status)) = some (2, .running) ∧
    (nextOf (step (State.start [0x90#8] signedSkip))).map (fun t => (t.pos, t.status)) = some (1, .running) ∧
    (nextOf (step (State.start [] signedSkip))).map (fun t => (t.pos, t.status)) = some (0, .done) := by decide
/-- A hypothesis over all entries of OUT is met by a state whose OUT is empty and by one whose OUT is not. -/
theorem witness_StepKeepsRecordsLegal : ∀ e ∈ [Entry.mov (.register .cl) (.immediate (-128)), .unsupported 2], e.Legal signedSkip := by
  simp [Entry.Legal, literalInRange, signedSkip]
theorem witness_StepKeepsOutDecodesBuffer :
    ({ State.start [0x90#8, 0xB1#8, 0x0C#8] signedSkip with pos := 1, out := [.unsupported 0] } : State).OutDecodesBuffer := by
  unfold State.OutDecodesBuffer; decide
theorem witness_StepKeepsInvariant : (State.start [] signedSkip).Inv where
  buffer := ⟨rfl, by decide⟩
  posLe := by decide
  doneAtEnd := by decide
  failedAt := by intro k off h; cases h
  abortNoMarker := by intro h; cases h

theorem witness_StepRunsDecodedInstruction :
    (State.start [] signedAbort).pos = (State.start [] signedAbort).len ∧
    (State.start [0xB0#8, 1#8] signedAbort).pos < (State.start [0xB0#8, 1#8] signedAbort).len ∧
    decode (State.start [0xB0#8, 1#8] signedAbort).window = .instr (.movImm8ToReg 0#3 1#8) [] ∧
    (State.start [0xB0#8] signedAbort).pos < (State.start [0xB0#8] signedAbort).len ∧
    decode (State.start [0xB0#8] signedAbort).window = .truncated := by decide
theorem witness_StepRunsInstructionAtCursor : (State.start [0x89#8, 0xD9#8, 0x90#8] signedAbort).status = .running ∧
    (Instr.movRegToRm true 3#3 1#3).wf = true ∧
    (State.start [0x89#8, 0xD9#8, 0x90#8] signedAbort).Holds 0 (encode (.movRegToRm true 3#3 1#3)) := by decide
theorem witness_DoneExactlyAtEndOfBuffer : (State.start [] signedAbort).status = .running ∧
    (nextOf (step (State.start [] signedAbort))).map State.status = some .done ∧
    (nextOf (step (State.start [0x89#8] signedAbort))).map State.status = some (.failed .truncatedInput 0) := by decide
theorem witness_TerminalStatusIsFinal : ({ State.reset with status := .done } : State).status ≠ .running ∧
    ({ State.reset with status := .failed .truncatedInput 0 } : State).status ≠ .running := by decide
theorem witness_StepAnswersUnlessTerminal : (State.reset.status = .running ∧ State.reset.pos ≤ State.reset.len) ∧
    ({ State.reset with status := .done } : State).status ≠ .running ∧
    ({ State.reset with pos := 1 } : State).status = .running ∧ State.reset.len < ({ State.reset with pos := 1 } : State).pos := by decide
theorem witness_FailuresArePrecise :
    (nextOf (step (State.start [0x90#8] signedAbort))).map State.status = some (.failed .unsupportedOpcode 0) ∧
    (nextOf (step (State.start [0x89#8] signedSkip))).map State.status = some (.failed .truncatedInput 0) := by decide
/-- Two different cell lists that agree below LEN. -/
theorem witness_OnlyBytesBelowLenMatter : ∀ a,
    ({ State.start [0x90#8] signedSkip with mem := [(0, 0x90#8), (7, 1#8)] } : State).readByte? a =
      (State.start [0x90#8] signedSkip).readByte? a := by
  intro a
  cases a with
  | zero => rfl
  | succ a => simp [State.readByte?, State.start]
theorem witness_StepRefinesPseudocode : (State.start [0x8B#8, 0x46#8, 0xFF#8] signedAbort).status = .running ∧
    (State.start [0x8B#8, 0x46#8, 0xFF#8] signedAbort).pos ≤ (State.start [0x8B#8, 0x46#8, 0xFF#8] signedAbort).len := by decide
/-- The two configurations differ in signedness, and in elision alone. -/
theorem witness_SignednessChangesLiteralValuesOnly : unsignedAbort.policy = signedAbort.policy ∧ unsignedAbort ≠ signedAbort ∧
    signedElide.policy = signedAbort.policy ∧ signedElide.signedLiterals = signedAbort.signedLiterals ∧ signedElide ≠ signedAbort := by
  decide
/-- The empty buffer needs one step. -/
theorem witness_RunTerminates : ([] : List Byte).length + 1 ≤ 1 := by decide
/-- A run that ends in Done, one in each kind of Failed, and the output before the failure. -/
theorem witness_RunOutputDecodesBuffer :
    (runOf [0xB1#8, 0x0C#8] signedAbort).status = .done ∧
    (runOf [0xB1#8, 0x0C#8, 0x90#8] signedAbort).status = .failed .unsupportedOpcode 2 ∧
    (runOf [0xB1#8, 0x0C#8, 0x90#8] signedAbort).out = [.mov (.register .cl) (.immediate 12)] ∧
    (runOf [0x90#8, 0x89#8] signedSkip).status = .failed .truncatedInput 1 := by decide
theorem witness_DecimalIsShortestNumeral : 0 < 1 := by decide
/-- Bytes `B1 F4` after an entry of the same bytes, read signed (-12) and unsigned (244), and the step both take; with elision
alone changed the outputs are equal. -/
theorem witness_StepKeepsAgreementUpToLiterals :
    let s : State := { State.start [0xB1#8, 0xF4#8] signedAbort with out := [.mov (.register .cl) (.immediate (-12))] }
    let s' : State := { State.start [0xB1#8, 0xF4#8] unsignedAbort with out := [.mov (.register .cl) (.immediate 244)] }
    s.SameUpToLiterals s' ∧ s.SameUpToLiterals { s with cfg := signedElide } ∧
    signedElide.signedLiterals = signedAbort.signedLiterals ∧ (nextOf (step s)).map State.pos = some 2 :=
  ⟨⟨rfl, rfl, fun _ => rfl, rfl, rfl, rfl⟩, ⟨rfl, rfl, fun _ => rfl, rfl, rfl, rfl⟩, rfl, by decide⟩
theorem witness_OperandText : (signedElide.elideZeroDisp = true ∧ (0 : Int) = 0) ∧ ¬(signedElide.elideZeroDisp = true ∧ (1 : Int) = 0) ∧
    ¬(signedAbort.elideZeroDisp = true ∧ (0 : Int) = 0) := by decide
theorem witness_LinesFollowGrammar :
    (Entry.mov (.effectiveAddress 0#3 (some (-32768))) (.register .ax)).Legal signedAbort ∧
    (Entry.mov (.register .cl) (.immediate 0)).Legal unsignedAbort := by
  simp [Entry.Legal, Operand.LegalMem, literalInRange, signedAbort, unsignedAbort]
/-- With elision two different records print alike, and `printed` makes them one. -/
theorem witness_RenderIsInjective :
    renderMov signedElide (.effectiveAddress 7#3 (some 0)) (.register .bh) =
      renderMov signedElide (.effectiveAddress 7#3 none) (.register .bh) ∧ signedAbort.elideZeroDisp = false := by decide

end Sys2Proof.Tests
end

/-! SUPPORT. Where a step answers a next state: `exec` always does, and `step` is split once along its branches (R80, R84,
R85; log entries 4 and 5). -/

namespace Sys2Proof.Machine

/-- Whether its bytes are present or not, a move's arm answers a next state. -/
theorem State.emitMov_answers (s : State) (n : Nat) (dst src : Operand) : ∃ t, s.emitMov n dst src = .next t := by
  rcases Nat.lt_or_ge s.len (s.pos + n) with h | h
  · exact ⟨_, State.emitMov_truncates h dst src⟩
  · exact ⟨_, State.emitMov_fits h dst src⟩

theorem execUnsupported_answers (b0 : Byte) (s : State) : ∃ t, execUnsupported b0 s = .next t := by
  unfold execUnsupported
  cases s.cfg.policy with
  | abort => exact ⟨_, rfl⟩
  | skip => exact ⟨_, rfl⟩

/-- No arm faults or refuses, in any state: every move ends in `State.emitMov`. -/
theorem exec_answers (i : Instr) (s : State) : ∃ t, exec i s = .next t := by
  cases i with
  | unsupported b0 => exact execUnsupported_answers b0 s
  | _ => exact State.emitMov_answers s _ _ _

theorem step_of_not_running {s : State} (h : s.status ≠ .running) : step s = .fault .noStepEnabled := by
  unfold step
  split
  next hr => exact absurd hr h
  next => rfl
  next => rfl

theorem step_of_past_end {s : State} (hr : s.status = .running) (h : s.len < s.pos) :
    step s = .fault .outsideBuffer := by
  simp [step, hr, h]

theorem step_of_exhausted {s : State} (hr : s.status = .running) (h : s.pos ≤ s.len) (hf : s.fetch = .exhausted) :
    step s = .next s.finish := by
  simp [step, hr, Nat.not_lt.mpr h, hf]

theorem step_of_truncated {s : State} (hr : s.status = .running) (h : s.pos ≤ s.len) (hf : s.fetch = .truncated) :
    step s = .next (s.fail .truncatedInput) := by
  simp [step, hr, Nat.not_lt.mpr h, hf]

theorem step_of_instr {s : State} {i : Instr} {rest : List Byte} (hr : s.status = .running) (h : s.pos ≤ s.len)
    (hf : s.fetch = .instr i rest) : step s = exec i s := by
  simp [step, hr, Nat.not_lt.mpr h, hf]

/-- Within the buffer a running block answers whatever the decoder says of the bytes at the cursor. -/
theorem step_answers {s : State} (hr : s.status = .running) (h : s.pos ≤ s.len) : ∃ t, step s = .next t := by
  cases hf : s.fetch with
  | exhausted => exact ⟨_, step_of_exhausted hr h hf⟩
  | truncated => exact ⟨_, step_of_truncated hr h hf⟩
  | instr i rest => rw [step_of_instr hr h hf]; exact exec_answers i s

theorem running_of_step_next {s t : State} (h : step s = .next t) : s.status = .running := by
  by_contra hr
  simp [step_of_not_running hr] at h

theorem pos_le_len_of_step_next {s t : State} (h : step s = .next t) : s.pos ≤ s.len := by
  by_contra hpos
  simp [step_of_past_end (running_of_step_next h) (Nat.lt_of_not_le hpos)] at h

/-- Settles O37: `exec` always answers, so the only steps without a next state are `step`'s own two faults. -/
theorem stepAnswersUnlessTerminal : Obligations.StepAnswersUnlessTerminal := by
  intro s
  refine ⟨⟨?_, ?_⟩, step_of_not_running, step_of_past_end⟩
  · rintro ⟨t, h⟩
    exact ⟨running_of_step_next h, pos_le_len_of_step_next h⟩
  · rintro ⟨hr, hpos⟩
    exact step_answers hr hpos

end Sys2Proof.Machine

/-! SUPPORT. The decoder with its arms is the pseudocode: the fields of the bytes as natural numbers, the literals, the two
formats, and from them what a step of a running block is (R80 to R84, R90, R91, R110). -/

namespace Sys2Proof.Machine

/-! The pseudocode's bit fields are the decoder's. -/

theorem classify_rm_iff_bitsOf (b : Byte) : classify b = .rm ↔ bitsOf b.toNat 7 2 = 34 := by
  revert b; decide

theorem classify_ri_iff_bitsOf (b : Byte) : classify b = .ri ↔ bitsOf b.toNat 7 4 = 11 := by
  revert b; decide

theorem bitsOf_dBit (b : Byte) : bitsOf b.toNat 1 1 = (dBit b).toNat := by
  revert b; decide

theorem bitsOf_wBitRm (b : Byte) : bitsOf b.toNat 0 0 = (wBitRm b).toNat := by
  revert b; decide

theorem bitsOf_wBitRi (b : Byte) : bitsOf b.toNat 3 3 = (wBitRi b).toNat := by
  revert b; decide

theorem bitsOf_regFieldRi (b : Byte) : bitsOf b.toNat 2 0 = (regFieldRi b).toNat := by
  revert b; decide

theorem bitsOf_modField (b : Byte) : bitsOf b.toNat 7 6 = (modField b).toNat := by
  revert b; decide

theorem bitsOf_regField (b : Byte) : bitsOf b.toNat 5 3 = (regField b).toNat := by
  revert b; decide

theorem bitsOf_rmField (b : Byte) : bitsOf b.toNat 2 0 = (rmField b).toNat := by
  revert b; decide

theorem trailRaw_toNat (md : BitVec 2) (rm : Sel) : trailRaw md.toNat rm.toNat = trail md rm := by
  revert md rm; decide

@[simp] theorem registerRaw_toNat (w : Bool) (sel : Sel) : registerRaw w.toNat sel.toNat = regOperand w sel := by
  cases w <;> simp [registerRaw]

/-! Literals: the pseudocode's value of the bytes read is the decoder's value of the literal. -/

/-- R61: the two's-complement reading, written over naturals, is `BitVec.toInt`. -/
theorem interpRaw_toNat (cfg : Cfg) {n : Nat} (v : BitVec (n + 1)) : interpRaw cfg v.toNat (n + 1) = interp cfg v := by
  have hsign : v.toNat < 2 ^ n ↔ 2 * v.toNat < 2 ^ (n + 1) := by rw [Nat.pow_succ']; omega
  simp [interpRaw, interp, BitVec.toInt_eq_toNat_cond, hsign]

theorem memRead2_eq_littleEndian (s : State) (a : Nat) :
    memRead2 s a = (littleEndian (Memory.read s.mem a) (Memory.read s.mem (a + 1))).toNat :=
  (toNat_littleEndian _ _).symm

theorem ofNat_memRead2 (s : State) (a : Nat) :
    BitVec.ofNat 16 (memRead2 s a) = littleEndian (Memory.read s.mem a) (Memory.read s.mem (a + 1)) := by
  rw [memRead2_eq_littleEndian, BitVec.ofNat_toNat, BitVec.setWidth_eq]

theorem interpRaw_memRead1 (s : State) (cfg : Cfg) (a : Nat) :
    interpRaw cfg (memRead1 s a) 8 = interp cfg (Memory.read s.mem a) :=
  interpRaw_toNat cfg (Memory.read s.mem a)

theorem interpRaw_memRead2 (s : State) (cfg : Cfg) (a : Nat) :
    interpRaw cfg (memRead2 s a) 16 = interp cfg (littleEndian (Memory.read s.mem a) (Memory.read s.mem (a + 1))) := by
  rw [memRead2_eq_littleEndian]
  exact interpRaw_toNat cfg (littleEndian _ _)

/-- The five forms of R57 and R91. -/
theorem addressing_forms (md : BitVec 2) (rm : Sel) :
    md = 0b11#2 ∨ (md = 0b00#2 ∧ rm = 0b110#3) ∨ (md = 0b00#2 ∧ rm ≠ 0b110#3) ∨ md = 0b01#2 ∨ md = 0b10#2 := by
  revert md rm; decide

theorem trail_le_two (md : BitVec 2) (rm : Sel) : trail md rm ≤ 2 := by
  revert md rm; decide

/-- R91: the resolver over the bit fields and the bytes of the buffer. -/
theorem resolveRaw_toNat (s : State) (md : BitVec 2) (rm : Sel) (w : Bool) (start : Nat) :
    resolveRaw s md.toNat rm.toNat w.toNat start =
      if md = 0b11#2 then regOperand w rm
      else if md = 0b00#2 ∧ rm = 0b110#3 then
        .directAddress (littleEndian (Memory.read s.mem (start + 2)) (Memory.read s.mem (start + 3)))
      else if md = 0b00#2 then memOperand rm
      else if md = 0b01#2 then dispOperand s.cfg rm (Memory.read s.mem (start + 2))
      else dispOperand s.cfg rm (littleEndian (Memory.read s.mem (start + 2)) (Memory.read s.mem (start + 3))) := by
  simp only [resolveRaw, registerRaw_toNat, ofNat_memRead2, interpRaw_memRead1, interpRaw_memRead2,
    BitVec.ofNat_toNat, BitVec.setWidth_eq, BitVec.toNat_eq]
  rfl

/-! The bytes of the window after its first `j`. -/

/-- The buffer's bytes from `POS + j` on, up to the fourth byte after `POS` or the end of the buffer. -/
def State.bytesFrom (s : State) (j : Nat) : List Byte :=
  Memory.readBytes s.mem (s.pos + j) (min maxLength (s.len - s.pos) - j)

theorem State.fetch_eq_decode_bytesFrom (s : State) : s.fetch = decode (s.bytesFrom 0) := rfl

theorem State.bytesFrom_of_lt {s : State} {j : Nat} (hj : j < maxLength) (h : s.pos + j < s.len) :
    s.bytesFrom j = Memory.read s.mem (s.pos + j) :: s.bytesFrom (j + 1) := by
  obtain ⟨k, hk⟩ : ∃ k, min maxLength (s.len - s.pos) - j = k + 1 := Nat.exists_eq_succ_of_ne_zero (by omega)
  have hk' : min maxLength (s.len - s.pos) - (j + 1) = k := by omega
  simp only [State.bytesFrom, hk, hk', Memory.readBytes, Nat.add_assoc]

theorem State.bytesFrom_of_le {s : State} {j : Nat} (h : s.len ≤ s.pos + j) : s.bytesFrom j = [] := by
  have hk : min maxLength (s.len - s.pos) - j = 0 := by omega
  rw [State.bytesFrom, hk, Memory.readBytes]

theorem State.bytesFrom_length (s : State) (j : Nat) : (s.bytesFrom j).length = min maxLength (s.len - s.pos) - j :=
  Memory.readBytes_length _ _ _

/-! The two formats. -/

/-- What `step` does with the decoder's answer. -/
def State.runDecoded (s : State) : Decoded → Result
  | .instr i _ => exec i s
  | .truncated => .next (s.fail .truncatedInput)
  | .exhausted => .next s.finish

theorem step_eq_runDecoded {s : State} (hr : s.status = .running) (h : s.pos ≤ s.len) :
    step s = s.runDecoded s.fetch := by
  cases hf : s.fetch with
  | instr i rest => exact step_of_instr hr h hf
  | truncated => exact step_of_truncated hr h hf
  | exhausted => exact step_of_exhausted hr h hf

/-- What `refStep` does with the pseudocode's arm. -/
def State.takeArm (s : State) : ArmResult → State
  | .emits e n => s.emit e n
  | .raises k => s.fail k

theorem refStep_of_end {s : State} (h : s.pos = s.len) : refStep s = s.finish := if_pos h

theorem refStep_of_lt {s : State} (h : s.pos < s.len) : refStep s = s.takeArm (refArm s s.pos) := by
  rw [refStep, if_neg (by omega)]
  cases refArm s s.pos <;> rfl

theorem State.emitMov_eq_takeArm (s : State) (n : Nat) (dst src : Operand) :
    s.emitMov n dst src =
      .next (s.takeArm (if s.pos + n > s.len then .raises .truncatedInput else .emits (.mov dst src) n)) := by
  by_cases h : s.pos + n > s.len
  · rw [State.emitMov_truncates h, if_pos h]; rfl
  · rw [State.emitMov_fits (Nat.le_of_not_lt h), if_neg h]; rfl

/-- The move of the RM form on its first two bytes: the direction bit says which operand is the destination (R90). -/
def State.rmMove (s : State) (b0 b1 : Byte) : Result :=
  let reg := regOperand (wBitRm b0) (regField b1)
  let mem := resolveRaw s (modField b1).toNat (rmField b1).toNat (wBitRm b0).toNat s.pos
  let n := 2 + trail (modField b1) (rmField b1)
  if dBit b0 then s.emitMov n reg mem else s.emitMov n mem reg

/-- The move of the RI form on its first byte (R110). -/
def State.riMove (s : State) (b0 : Byte) : Result :=
  if wBitRi b0 then
    s.emitMov 3 (regOperand true (regFieldRi b0))
      (immOperand s.cfg (littleEndian (Memory.read s.mem (s.pos + 1)) (Memory.read s.mem (s.pos + 2))))
  else s.emitMov 2 (regOperand false (regFieldRi b0)) (immOperand s.cfg (Memory.read s.mem (s.pos + 1)))

/-- R110: where a byte of the immediate is missing, the decoder and the arm both truncate. -/
theorem runDecoded_decodeRi (s : State) (b0 : Byte) (h : s.pos < s.len) :
    s.runDecoded (decodeRi b0 (s.bytesFrom 1)) = s.riMove b0 := by
  unfold decodeRi State.riMove
  by_cases h1 : s.pos + 1 < s.len
  · rw [State.bytesFrom_of_lt (by decide) h1]
    by_cases h2 : s.pos + 2 < s.len
    · rw [State.bytesFrom_of_lt (by decide) h2]
      cases wBitRi b0 <;> rfl
    · rw [State.bytesFrom_of_le (Nat.le_of_not_lt h2), State.emitMov_truncates (n := 3) (by omega)]
      cases wBitRi b0 <;> rfl
  · rw [State.bytesFrom_of_le (Nat.le_of_not_lt h1), State.emitMov_truncates (n := 3) (by omega),
      State.emitMov_truncates (n := 2) (by omega)]
    cases wBitRi b0 <;> rfl

/-- R140: with fewer trailing bytes than its form needs, an RM instruction is rejected as truncated. -/
theorem decodeRm_of_missing {b0 b1 : Byte} {rest : List Byte} (h : rest.length < trail (modField b1) (rmField b1)) :
    decodeRm b0 b1 rest = .truncated := by
  unfold decodeRm
  match rest with
  | [] | [_] => rcases addressing_forms (modField b1) (rmField b1) with hf | hf | hf | hf | hf <;> simp [hf, trail] at h ⊢
  | _ :: _ :: rest =>
    have htrail := trail_le_two (modField b1) (rmField b1)
    simp only [List.length_cons] at h
    omega

/-- R57, R91: in each of the five forms the decoder reads the trailing bytes the resolver reads, and where one of them is
missing both truncate. -/
theorem runDecoded_decodeRm {s : State} (b0 b1 : Byte) (h : s.pos + 1 < s.len) :
    s.runDecoded (decodeRm b0 b1 (s.bytesFrom 2)) = s.rmMove b0 b1 := by
  unfold State.rmMove
  rw [resolveRaw_toNat]
  by_cases hfit : s.len < s.pos + (2 + trail (modField b1) (rmField b1))
  · have hmissing : (s.bytesFrom 2).length < trail (modField b1) (rmField b1) := by
      rw [State.bytesFrom_length]; omega
    simp only [decodeRm_of_missing hmissing, State.emitMov_truncates hfit, ite_self, State.runDecoded]
  · have hread (j : Nat) (hj : j < 4) (hlt : s.pos + j < s.len) := State.bytesFrom_of_lt (s := s) hj hlt
    unfold decodeRm
    rcases addressing_forms (modField b1) (rmField b1) with hf | hf | hf | hf | hf <;> simp [hf, trail] at hfit ⊢
    · cases dBit b0 <;> rfl
    · rw [hread 2 (by decide) (by omega), hread 3 (by decide) (by omega)]
      cases dBit b0 <;> rfl
    · cases dBit b0 <;> rfl
    · rw [hread 2 (by decide) (by omega)]
      cases dBit b0 <;> rfl
    · rw [hread 2 (by decide) (by omega), hread 3 (by decide) (by omega)]
      cases dBit b0 <;> rfl

theorem takeArm_refDecodeRi (s : State) (b0 : Byte) :
    .next (s.takeArm (refDecodeRi s s.pos b0.toNat)) = s.riMove b0 := by
  unfold refDecodeRi State.riMove immOperand
  simp only [bitsOf_wBitRi, bitsOf_regFieldRi, interpRaw_memRead1, interpRaw_memRead2, registerRaw_toNat,
    State.emitMov_eq_takeArm]
  cases wBitRi b0 <;> rfl

theorem takeArm_refDecodeRm (s : State) (b0 : Byte) (h : s.pos + 1 < s.len) :
    .next (s.takeArm (refDecodeRm s s.pos b0.toNat)) = s.rmMove b0 (Memory.read s.mem (s.pos + 1)) := by
  have hpair : ¬ s.pos + 2 > s.len := by omega
  unfold refDecodeRm State.rmMove memRead1
  simp only [bitsOf_wBitRm, bitsOf_dBit, bitsOf_modField, bitsOf_regField, bitsOf_rmField, trailRaw_toNat, registerRaw_toNat,
    State.emitMov_eq_takeArm, if_neg hpair]
  cases dBit b0 <;> rfl

theorem takeArm_refDecodeRm_single (s : State) (b0 : Nat) (h : s.len ≤ s.pos + 1) :
    s.takeArm (refDecodeRm s s.pos b0) = s.fail .truncatedInput := by
  rw [refDecodeRm, if_pos (by omega)]; rfl

/-! The dispatch on the first byte. -/

theorem decode_of_rm {b0 : Byte} (h : classify b0 = .rm) (b1 : Byte) (rest : List Byte) :
    decode (b0 :: b1 :: rest) = decodeRm b0 b1 rest := by
  simp [decode, h]

theorem decode_of_rm_single {b0 : Byte} (h : classify b0 = .rm) : decode [b0] = .truncated := by
  simp [decode, h]

theorem decode_of_ri {b0 : Byte} (h : classify b0 = .ri) (rest : List Byte) :
    decode (b0 :: rest) = decodeRi b0 rest := by
  simp [decode, h]

theorem decode_of_unsupported {b0 : Byte} (h : classify b0 = .unsupported) (rest : List Byte) :
    decode (b0 :: rest) = .instr (.unsupported b0) rest := by
  simp [decode, h]

theorem refArm_of_rm {s : State} {a : Nat} (h : classify (Memory.read s.mem a) = .rm) :
    refArm s a = refDecodeRm s a (Memory.read s.mem a).toNat :=
  if_pos ((classify_rm_iff_bitsOf _).mp h)

theorem refArm_of_ri {s : State} {a : Nat} (h : classify (Memory.read s.mem a) = .ri) :
    refArm s a = refDecodeRi s a (Memory.read s.mem a).toNat := by
  have hrm : bitsOf (memRead1 s a) 7 2 ≠ 34 := fun hb => by simp [(classify_rm_iff_bitsOf _).mpr hb] at h
  exact (if_neg hrm).trans (if_pos ((classify_ri_iff_bitsOf _).mp h))

theorem refArm_of_unsupported {s : State} {a : Nat} (h : classify (Memory.read s.mem a) = .unsupported) :
    refArm s a = if s.cfg.policy = .abort then .raises .unsupportedOpcode else .emits (.unsupported a) 1 := by
  have hrm : bitsOf (memRead1 s a) 7 2 ≠ 34 := fun hb => by simp [(classify_rm_iff_bitsOf _).mpr hb] at h
  have hri : bitsOf (memRead1 s a) 7 4 ≠ 11 := fun hb => by simp [(classify_ri_iff_bitsOf _).mpr hb] at h
  refine (if_neg hrm).trans ((if_neg hri).trans ?_)
  cases s.cfg.policy <;> rfl

theorem execUnsupported_eq_takeArm (b0 : Byte) (s : State) :
    execUnsupported b0 s = .next (s.takeArm
      (if s.cfg.policy = .abort then .raises .unsupportedOpcode else .emits (.unsupported s.pos) 1)) := by
  unfold execUnsupported
  cases s.cfg.policy <;> rfl

/-- R80: below the end of the buffer, running what the decoder answers is taking the pseudocode's arm. -/
theorem runDecoded_fetch {s : State} (h : s.pos < s.len) :
    s.runDecoded s.fetch = .next (s.takeArm (refArm s s.pos)) := by
  rw [State.fetch_eq_decode_bytesFrom, State.bytesFrom_of_lt (by decide) h, Nat.add_zero]
  cases hc : classify (Memory.read s.mem s.pos) with
  | rm =>
    rw [refArm_of_rm hc]
    by_cases h1 : s.pos + 1 < s.len
    · rw [State.bytesFrom_of_lt (by decide) h1, decode_of_rm hc, runDecoded_decodeRm _ _ h1, takeArm_refDecodeRm _ _ h1]
    · rw [State.bytesFrom_of_le (Nat.le_of_not_lt h1), decode_of_rm_single hc,
        takeArm_refDecodeRm_single _ _ (Nat.le_of_not_lt h1)]
      rfl
  | ri => rw [refArm_of_ri hc, decode_of_ri hc, runDecoded_decodeRi _ _ h, takeArm_refDecodeRi]
  | unsupported =>
    rw [refArm_of_unsupported hc, decode_of_unsupported hc]
    exact execUnsupported_eq_takeArm (Memory.read s.mem s.pos) s

/-- At the end of the buffer the decoder sees no byte. -/
theorem fetch_of_end {s : State} (h : s.pos = s.len) : s.fetch = .exhausted := by
  rw [State.fetch_eq_decode_bytesFrom, State.bytesFrom_of_le h.ge, decode]

/-- R80 to R84: a step of a running block within its buffer is the pseudocode's. -/
theorem step_eq_refStep {s : State} (hr : s.status = .running) (h : s.pos ≤ s.len) : step s = .next (refStep s) := by
  rcases h.eq_or_lt with hend | hlt
  · rw [step_of_exhausted hr h (fetch_of_end hend), refStep_of_end hend]
  · rw [step_eq_runDecoded hr h, runDecoded_fetch hlt, refStep_of_lt hlt]

/-- What a step can do, by the pseudocode's arm at the cursor: the clean end, a failure, or one entry with the bytes it
accounts for. -/
theorem step_next {s t : State} (h : step s = .next t) :
    (s.pos = s.len ∧ t = s.finish) ∨
    (s.pos < s.len ∧ ∃ k, refArm s s.pos = .raises k ∧ t = s.fail k) ∨
    (s.pos < s.len ∧ ∃ e n, refArm s s.pos = .emits e n ∧ t = s.emit e n) := by
  have hpos := pos_le_len_of_step_next h
  obtain rfl : refStep s = t := by
    rw [step_eq_refStep (running_of_step_next h) hpos] at h
    exact Host.Outcome.next.inj h
  rcases hpos.eq_or_lt with hend | hlt
  · exact .inl ⟨hend, refStep_of_end hend⟩
  · rw [refStep_of_lt hlt]
    cases harm : refArm s s.pos with
    | raises k => exact .inr (.inl ⟨hlt, k, rfl, rfl⟩)
    | emits e n => exact .inr (.inr ⟨hlt, e, n, rfl, rfl⟩)

end Sys2Proof.Machine

/-! SUPPORT and the statements of 10_state.md: what an emitting arm emits, what a step keeps, and what a run keeps. -/

namespace Sys2Proof.Machine

/-! What the pseudocode's arm emits: a legal entry that accounts for bytes within the buffer. -/

/-- R21: an interpreted literal of at most 16 bits is in range. -/
theorem literalInRange_interpRaw (cfg : Cfg) {raw n : Nat} (hn : n ≤ 15) (hraw : raw < 2 ^ (n + 1)) :
    literalInRange cfg (interpRaw cfg raw (n + 1)) := by
  have hpow : 2 ^ (n + 1) = 2 * 2 ^ n := Nat.pow_succ'
  have hmax : 2 ^ n ≤ 2 ^ 15 := Nat.pow_le_pow_right (by decide) hn
  have hcast : ((2 : Int) ^ (n + 1)) = ((2 ^ (n + 1) : Nat) : Int) := by push_cast; rfl
  unfold literalInRange interpRaw
  rw [Nat.add_sub_cancel, hcast]
  cases cfg.signedLiterals with
  | false => simp only [Bool.false_eq_true, if_false]; omega
  | true => simp only [if_true]; split <;> omega

theorem literalInRange_memRead1 (s : State) (cfg : Cfg) (a : Nat) :
    literalInRange cfg (interpRaw cfg (memRead1 s a) 8) :=
  literalInRange_interpRaw cfg (by decide) (Memory.read s.mem a).isLt

theorem literalInRange_memRead2 (s : State) (cfg : Cfg) (a : Nat) :
    literalInRange cfg (interpRaw cfg (memRead2 s a) 16) := by
  rw [memRead2_eq_littleEndian]
  exact literalInRange_interpRaw cfg (by decide) (littleEndian _ _).isLt

/-- R21, R22: the resolver gives a register or a legal memory operand; the equation of `rm = 6` never stands alone. -/
theorem resolveRaw_legal (s : State) (md w start : Nat) {rm : Nat} (hrm : rm < 8) :
    (∃ r, resolveRaw s md rm w start = .register r) ∨ (resolveRaw s md rm w start).LegalMem s.cfg := by
  unfold resolveRaw
  split
  · exact .inl ⟨_, rfl⟩
  · right
    split_ifs with hdirect h0 h1
    · trivial
    · have hbp : BitVec.ofNat 3 rm ≠ 6#3 := by
        intro h
        have := congrArg BitVec.toNat h
        simp only [BitVec.toNat_ofNat] at this
        omega
      exact hbp
    · exact literalInRange_memRead1 s s.cfg _
    · exact literalInRange_memRead2 s s.cfg _

/-- R22: a register beside a register or a legal memory operand is legal on either side. -/
theorem Entry.legal_of_register {cfg : Cfg} {m : Operand} (r : RegName) (h : (∃ r', m = .register r') ∨ m.LegalMem cfg) :
    (Entry.mov (.register r) m).Legal cfg ∧ (Entry.mov m (.register r)).Legal cfg := by
  rcases h with ⟨r', rfl⟩ | h
  · exact ⟨trivial, trivial⟩
  · cases m with
    | register r' => exact ⟨trivial, trivial⟩
    | immediate v => exact h.elim
    | directAddress a => exact ⟨h, h⟩
    | effectiveAddress rm d => exact ⟨h, h⟩

theorem refDecodeRm_emits {s : State} {a b0 n : Nat} {e : Entry} (h : refDecodeRm s a b0 = .emits e n) :
    0 < n ∧ a + n ≤ s.len ∧ e.Legal s.cfg := by
  simp only [refDecodeRm] at h
  split at h
  · cases h
  · split at h
    · cases h
    · next hfit =>
      cases h
      refine ⟨by omega, Nat.le_of_not_lt hfit, ?_⟩
      have hrm : bitsOf (memRead1 s (a + 1)) 2 0 < 8 := Nat.mod_lt _ (by decide)
      obtain ⟨hdst, hsrc⟩ := Entry.legal_of_register _ (resolveRaw_legal s _ _ a hrm)
      split
      · exact hdst
      · exact hsrc

theorem refDecodeRi_emits {s : State} {a b0 n : Nat} {e : Entry} (h : refDecodeRi s a b0 = .emits e n) :
    0 < n ∧ a + n ≤ s.len ∧ e.Legal s.cfg := by
  by_cases hfit : a + (if bitsOf b0 3 3 = 0 then 2 else 3) > s.len
  · rw [refDecodeRi, if_pos hfit] at h
    cases h
  · rw [refDecodeRi, if_neg hfit] at h
    cases h
    refine ⟨by split <;> decide, Nat.le_of_not_lt hfit, ?_⟩
    show literalInRange s.cfg _
    split
    · exact literalInRange_memRead1 s s.cfg _
    · exact literalInRange_memRead2 s s.cfg _

theorem refArm_emits {s : State} {a n : Nat} {e : Entry} (ha : a < s.len) (h : refArm s a = .emits e n) :
    0 < n ∧ a + n ≤ s.len ∧ e.Legal s.cfg := by
  cases hc : classify (Memory.read s.mem a) with
  | rm => rw [refArm_of_rm hc] at h; exact refDecodeRm_emits h
  | ri => rw [refArm_of_ri hc] at h; exact refDecodeRi_emits h
  | unsupported =>
    rw [refArm_of_unsupported hc] at h
    split at h
    · cases h
    · next hskip =>
      cases h
      refine ⟨Nat.one_pos, ha, ?_⟩
      cases hp : s.cfg.policy with
      | abort => exact absurd hp hskip
      | skip => exact hp

/-! What no step changes, and where a step leaves the cursor. -/

/-- The host's inputs of a run (R7, R15, R31): nothing the block does changes them. -/
structure State.SameInputs (s t : State) : Prop where
  mem : t.mem = s.mem
  len : t.len = s.len
  cfg : t.cfg = s.cfg

theorem State.SameInputs.trans {s t u : State} (h : s.SameInputs t) (h' : t.SameInputs u) : s.SameInputs u :=
  ⟨h'.mem.trans h.mem, h'.len.trans h.len, h'.cfg.trans h.cfg⟩

theorem State.SameInputs.readByte? {s t : State} (h : s.SameInputs t) (a : Nat) : t.readByte? a = s.readByte? a := by
  rw [State.readByte?, State.readByte?, h.mem, h.len]

/-- The pseudocode's arm depends on the inputs alone. -/
theorem State.SameInputs.refArm {s t : State} (h : s.SameInputs t) (a : Nat) : refArm t a = refArm s a := by
  obtain ⟨hmem, hlen, hcfg⟩ := h
  cases s; cases t
  subst hmem hlen hcfg
  rfl

theorem State.SameInputs.offsetAfter {s t : State} (h : s.SameInputs t) (p : Nat) (es : List Entry) :
    t.offsetAfter p es = s.offsetAfter p es := by
  induction es generalizing p with
  | nil => rfl
  | cons e es ih => simp only [State.offsetAfter, h.len, h.refArm, ih]

theorem step_sameInputs {s t : State} (h : step s = .next t) : s.SameInputs t := by
  rcases step_next h with ⟨-, rfl⟩ | ⟨-, k, -, rfl⟩ | ⟨-, e, n, -, rfl⟩ <;> exact ⟨rfl, rfl, rfl⟩

theorem step_pos_le_len {s t : State} (h : step s = .next t) : t.pos ≤ t.len := by
  have hpos := pos_le_len_of_step_next h
  rcases step_next h with ⟨-, rfl⟩ | ⟨-, k, -, rfl⟩ | ⟨hlt, e, n, harm, rfl⟩
  · exact hpos
  · exact hpos
  · obtain ⟨-, hfit, -⟩ := refArm_emits hlt harm
    exact hfit

/-! The invariants of R29 under each of the three things a step can do. -/

theorem State.Inv.finish {s : State} (h : s.Inv) (hend : s.pos = s.len) : s.finish.Inv where
  buffer := h.buffer
  posLe := h.posLe
  doneAtEnd _ := hend
  failedAt _ _ hs := by cases hs
  abortNoMarker := h.abortNoMarker

theorem State.Inv.fail {s : State} (h : s.Inv) (hlt : s.pos < s.len) (k : FailureKind) : (s.fail k).Inv where
  buffer := h.buffer
  posLe := h.posLe
  doneAtEnd hs := by cases hs
  failedAt _ _ hs := by cases hs; exact ⟨rfl, hlt⟩
  abortNoMarker := h.abortNoMarker

/-- A legal entry is no marker under `Abort`. -/
theorem State.Inv.emit {s : State} {e : Entry} {n : Nat} (h : s.Inv) (hr : s.status = .running) (hfit : s.pos + n ≤ s.len)
    (hlegal : e.Legal s.cfg) : (s.emit e n).Inv where
  buffer := h.buffer
  posLe := hfit
  doneAtEnd hs := by rw [State.emit_status, hr] at hs; cases hs
  failedAt _ _ hs := by rw [State.emit_status, hr] at hs; cases hs
  abortNoMarker hp off hmem := by
    rw [State.emit_cfg] at hp
    rcases List.mem_append.mp hmem with hold | hnew
    · exact h.abortNoMarker hp off hold
    · obtain rfl := List.mem_singleton.mp hnew
      have hskip : s.cfg.policy = .skip := hlegal
      simp [hp] at hskip

theorem State.Inv.start (bytes : List Byte) (cfg : Cfg) : (State.start bytes cfg).Inv where
  buffer := ⟨Memory.wf_ofBytes bytes, fun c hc => by simpa using (Memory.ofBytesFrom_bounds c hc).2⟩
  posLe := Nat.zero_le _
  doneAtEnd hs := by cases hs
  failedAt _ _ hs := by cases hs
  abortNoMarker _ _ := List.not_mem_nil

/-- Settles O46: the buffer's cells are untouched, and each of a step's three outcomes keeps the rest. -/
theorem stepKeepsInvariant : Obligations.StepKeepsInvariant := by
  intro s t hinv h
  rcases step_next h with ⟨hend, rfl⟩ | ⟨hlt, k, -, rfl⟩ | ⟨hlt, e, n, harm, rfl⟩
  · exact hinv.finish hend
  · exact hinv.fail hlt k
  · obtain ⟨-, hfit, hlegal⟩ := refArm_emits hlt harm
    exact hinv.emit (running_of_step_next h) hfit hlegal

/-- Settles O45: the placed bytes are canonical and lie below their number; the reset state is a reset on no bytes. -/
theorem invariantHoldsAfterReset : Obligations.InvariantHoldsAfterReset :=
  ⟨State.Inv.start, State.reset_eq_start ▸ State.Inv.start [] Cfg.atReset⟩

/-! OUT as the decoding of the buffer (R29 (ii)). -/

/-- Decoding some entries and then more is decoding them in one go. -/
theorem State.offsetAfter_append (s : State) (p : Nat) (es es' : List Entry) :
    s.offsetAfter p (es ++ es') = (s.offsetAfter p es).bind fun q => s.offsetAfter q es' := by
  induction es generalizing p with
  | nil => rfl
  | cons e es ih =>
    simp only [List.cons_append, State.offsetAfter]
    split
    · split
      · split
        · exact ih _
        · rfl
      · rfl
    · rfl

theorem State.offsetAfter_singleton {s : State} {p n : Nat} {e : Entry} (hlt : p < s.len) (harm : refArm s p = .emits e n) :
    s.offsetAfter p [e] = some (p + n) := by
  simp [State.offsetAfter, hlt, harm]

/-- Settles O47: an emitted entry is what the pseudocode's arm emits at the boundary reached so far. -/
theorem stepKeepsOutDecodesBuffer : Obligations.StepKeepsOutDecodesBuffer := by
  intro s t _ hs h
  unfold State.OutDecodesBuffer at hs ⊢
  rw [(step_sameInputs h).offsetAfter]
  rcases step_next h with ⟨-, rfl⟩ | ⟨-, k, -, rfl⟩ | ⟨hlt, e, n, harm, rfl⟩
  · exact hs
  · exact hs
  · rw [State.emit_out, State.offsetAfter_append, hs]
    exact State.offsetAfter_singleton hlt harm

/-- Settles O32: by the three things a step can do. -/
theorem stepFrame : Obligations.StepFrame := by
  intro s t h
  have hin := step_sameInputs h
  have hr := running_of_step_next h
  refine ⟨hin.mem, hin.len, hin.cfg, hin.readByte?, ?_⟩
  rcases step_next h with ⟨-, rfl⟩ | ⟨-, k, -, rfl⟩ | ⟨-, e, n, -, rfl⟩
  · exact .inr ⟨by simp, rfl, rfl⟩
  · exact .inr ⟨by simp, rfl, rfl⟩
  · exact .inl ⟨hr, e, rfl⟩

/-- A step that stays Running ran an instruction that the decoder read at the cursor. -/
theorem step_running_fetch {s t : State} (h : step s = .next t) (ht : t.status = .running) :
    ∃ i rest, s.fetch = .instr i rest ∧ t.pos = s.pos + instrLength i := by
  have hr := running_of_step_next h
  have hpos := pos_le_len_of_step_next h
  cases hf : s.fetch with
  | exhausted => rw [step_of_exhausted hr hpos hf] at h; cases h; cases ht
  | truncated => rw [step_of_truncated hr hpos hf] at h; cases h; cases ht
  | instr i rest =>
    rw [step_of_instr hr hpos hf] at h
    rcases exec_next h with ⟨k, rfl⟩ | ⟨e, rfl⟩
    · cases ht
    · exact ⟨i, rest, rfl, rfl⟩

/-- Settles O39: the decoder's answer gives the length, the pseudocode's bounds check the limit. -/
theorem cursorAdvancesByInstructionLength : Obligations.CursorAdvancesByInstructionLength := by
  intro s t h ht
  obtain ⟨i, rest, hf, hpos⟩ := step_running_fetch h ht
  refine ⟨i, rest, hf, hpos, ?_, step_pos_le_len h⟩
  rw [hpos]
  exact Nat.lt_add_of_pos_right (instrLength_pos i)

/-- Settles O40: the cursor stays at most LEN, which no step changes. -/
theorem cursorFitsAnyWidthThatHoldsLen : Obligations.CursorFitsAnyWidthThatHoldsLen := by
  intro s t posBits _ hlen h
  calc t.pos ≤ t.len := step_pos_le_len h
    _ = s.len := (step_sameInputs h).len
    _ < 2 ^ posBits := hlen

/-- Settles O48: the entries before the step are legal by hypothesis, a new one as the arm emitted it. -/
theorem stepKeepsRecordsLegal : Obligations.StepKeepsRecordsLegal := by
  intro s t hs h
  rcases step_next h with ⟨-, rfl⟩ | ⟨-, k, -, rfl⟩ | ⟨hlt, e, n, harm, rfl⟩
  · exact hs
  · exact hs
  · obtain ⟨-, -, hlegal⟩ := refArm_emits hlt harm
    rw [State.emit_out, State.emit_cfg, List.forall_mem_append, List.forall_mem_singleton]
    exact ⟨hs, hlegal⟩

/-! Runs. -/

/-- What every step keeps holds after any number of steps. -/
theorem steps_keep {P : State → Prop} (hstep : ∀ s t, P s → step s = .next t → P t) (k : Nat) {s : State} (hs : P s) :
    P (steps k s) := by
  induction k generalizing s with
  | zero => exact hs
  | succ k ih =>
    unfold steps
    split
    next t h => exact ih (hstep s t hs h)
    next => exact hs
    next => exact hs

theorem runOf_keeps {P : State → Prop} (hstep : ∀ s t, P s → step s = .next t → P t) (bytes : List Byte) (cfg : Cfg)
    (hs : P (State.start bytes cfg)) : P (runOf bytes cfg) :=
  steps_keep hstep _ hs

theorem runOf_inv (bytes : List Byte) (cfg : Cfg) : (runOf bytes cfg).Inv :=
  runOf_keeps stepKeepsInvariant bytes cfg (State.Inv.start bytes cfg)

theorem runOf_sameInputs (bytes : List Byte) (cfg : Cfg) : (State.start bytes cfg).SameInputs (runOf bytes cfg) :=
  runOf_keeps (fun _ _ hs h => hs.trans (step_sameInputs h)) bytes cfg ⟨rfl, rfl, rfl⟩

theorem runOf_outDecodesBuffer (bytes : List Byte) (cfg : Cfg) : (runOf bytes cfg).OutDecodesBuffer :=
  runOf_keeps (fun s t hs h => stepKeepsOutDecodesBuffer s t (pos_le_len_of_step_next h) hs h) bytes cfg rfl

/-- A failure in STATUS is the one the pseudocode's arm raises at its offset. -/
def State.FailureIsArms (s : State) : Prop := ∀ k off, s.status = .failed k off → refArm s off = .raises k

theorem step_failureIsArms {s t : State} (h : step s = .next t) : t.FailureIsArms := by
  intro k off ht
  rcases step_next h with ⟨-, rfl⟩ | ⟨-, k', harm, rfl⟩ | ⟨-, e, n, -, rfl⟩
  · cases ht
  · cases ht
    rw [(step_sameInputs h).refArm]
    exact harm
  · rw [State.emit_status, running_of_step_next h] at ht
    cases ht

theorem runOf_failureIsArms (bytes : List Byte) (cfg : Cfg) : (runOf bytes cfg).FailureIsArms :=
  runOf_keeps (fun _ _ _ h => step_failureIsArms h) bytes cfg fun _ _ h => by cases h

/-- Settles O50: OUT decodes the buffer up to POS, which is LEN at a clean end and the failing offset at a failure. -/
theorem runOutputDecodesBuffer : Obligations.RunOutputDecodesBuffer := by
  intro bytes cfg
  have hinv := runOf_inv bytes cfg
  have hin := runOf_sameInputs bytes cfg
  have hout : (State.start bytes cfg).offsetAfter 0 (runOf bytes cfg).out = some (runOf bytes cfg).pos := by
    rw [← hin.offsetAfter]; exact runOf_outDecodesBuffer bytes cfg
  refine ⟨hinv, fun hdone => ?_, fun k off hfailed => ?_⟩
  · rw [hout, hinv.doneAtEnd hdone, hin.len, State.start_len]
  · obtain ⟨hpos, hlt⟩ := hinv.failedAt k off hfailed
    rw [hin.len, State.start_len] at hlt
    refine ⟨by rw [hout, hpos], hlt, ?_⟩
    rw [← hin.refArm]
    exact runOf_failureIsArms bytes cfg k off hfailed

/-! Tables (R16, R14) and the reset state (R28). -/

/-- R16: the sixteen names are told apart by their two letters. -/
theorem regName_text_inj {w w' : Bool} {sel sel' : Sel} (h : (regName w sel).text = (regName w' sel').text) :
    w = w' ∧ sel = sel' := by
  revert w w' sel sel'; decide

/-- Settles O12: both columns of the table evaluate to its texts, and the texts are distinct. -/
theorem registerNameTable : Obligations.RegisterNameTable :=
  ⟨by decide, by decide, fun _ _ _ _ => regName_text_inj⟩

/-- Settles O44: the reset state is a reset on no bytes, whose fields are those of `State.start`. -/
theorem resetStateValues : Obligations.ResetStateValues := by
  unfold Obligations.ResetStateValues
  simp [State.reset_eq_start]

/-- Settles O57: each code as the rule's table gives it, by evaluation. -/
theorem statusCodes : Obligations.StatusCodes :=
  ⟨rfl, rfl, fun _ _ => rfl, rfl, rfl⟩

end Sys2Proof.Machine

/-! SUPPORT and the statements of 20_memory.md: the frame of the thirteen instructions, and that a step sees the buffer only
through its readable bytes. -/

namespace Sys2Proof.Machine

/-- Settles O11: the assembly and its split at every pair of bytes; the rule's two examples by evaluation. -/
theorem literalsAreLittleEndian : Obligations.LiteralsAreLittleEndian :=
  ⟨fun lo hi => ⟨toNat_littleEndian lo hi, wordBytes_littleEndian lo hi⟩, by decide, by decide⟩

theorem exec_sameInputs {i : Instr} {s t : State} (h : exec i s = .next t) : s.SameInputs t := by
  rcases exec_next h with ⟨k, rfl⟩ | ⟨e, rfl⟩ <;> exact ⟨rfl, rfl, rfl⟩

/-- Settles O31: every instruction answers, either by raising at the cursor or by emitting one entry. -/
theorem execFrame : Obligations.ExecFrame := by
  intro i s
  obtain ⟨t, h⟩ := exec_answers i s
  have hin := exec_sameInputs h
  refine ⟨t, h, hin.mem, hin.len, hin.cfg, hin.readByte?, ?_⟩
  rcases exec_next h with ⟨k, rfl⟩ | ⟨e, rfl⟩
  · exact .inr ⟨⟨k, rfl⟩, rfl, rfl⟩
  · exact .inl ⟨rfl, rfl, e, rfl⟩

/-! A step over another cell list. The arms never look at the buffer; the decoder looks at the window only, and the window
shows readable bytes only (R33, R39). -/

/-- The same state over another cell list. -/
def State.withMem (s : State) (m : Memory) : State := { s with mem := m }

theorem State.eq_withMem {s s' : State} (hpos : s'.pos = s.pos) (hout : s'.out = s.out) (hstatus : s'.status = s.status)
    (hlen : s'.len = s.len) (hcfg : s'.cfg = s.cfg) : s' = s.withMem s'.mem := by
  cases s; cases s'
  subst hpos hout hstatus hlen hcfg
  rfl

theorem State.emitMov_withMem {s t : State} {n : Nat} {dst src : Operand} (h : s.emitMov n dst src = .next t) (m : Memory) :
    (s.withMem m).emitMov n dst src = .next (t.withMem m) := by
  rcases State.emitMov_next h with ⟨htrunc, rfl⟩ | ⟨hfit, rfl⟩
  · exact State.emitMov_truncates (s := s.withMem m) htrunc dst src
  · exact State.emitMov_fits (s := s.withMem m) hfit dst src

theorem execUnsupported_of_abort {s : State} (h : s.cfg.policy = .abort) (b0 : Byte) :
    execUnsupported b0 s = .next (s.fail .unsupportedOpcode) := by
  simp [execUnsupported, h]

theorem execUnsupported_of_skip {s : State} (h : s.cfg.policy = .skip) (b0 : Byte) :
    execUnsupported b0 s = .next (s.emit (.unsupported s.pos) 1) := by
  simp [execUnsupported, h]

theorem execUnsupported_withMem {b0 : Byte} {s t : State} (h : execUnsupported b0 s = .next t) (m : Memory) :
    execUnsupported b0 (s.withMem m) = .next (t.withMem m) := by
  rcases execUnsupported_next h with ⟨habort, rfl⟩ | ⟨hskip, rfl⟩
  · exact execUnsupported_of_abort (s := s.withMem m) habort b0
  · exact execUnsupported_of_skip (s := s.withMem m) hskip b0

/-- An instruction carries its literals: it does the same over any cell list. -/
theorem exec_withMem {i : Instr} {s t : State} (h : exec i s = .next t) (m : Memory) :
    exec i (s.withMem m) = .next (t.withMem m) := by
  cases i with
  | unsupported b0 => exact execUnsupported_withMem (b0 := b0) h m
  | _ => exact State.emitMov_withMem h m

theorem State.runDecoded_withMem {s t : State} {d : Decoded} (h : s.runDecoded d = .next t) (m : Memory) :
    (s.withMem m).runDecoded d = .next (t.withMem m) := by
  cases d with
  | instr i rest => exact exec_withMem h m
  | truncated => cases h; rfl
  | exhausted => cases h; rfl

/-- States that agree in cursor, length and every readable byte show the same window. -/
theorem State.window_congr {s s' : State} (hpos : s'.pos = s.pos) (hlen : s'.len = s.len)
    (hread : ∀ a, s'.readByte? a = s.readByte? a) : s'.window = s.window := by
  refine List.ext_getElem (by rw [State.window_length, State.window_length, hpos, hlen]) fun k hk' hk => ?_
  apply Option.some.inj
  rw [← State.window_getElem hk', ← State.window_getElem hk, hpos, hread]

theorem State.fetch_congr {s s' : State} (hpos : s'.pos = s.pos) (hlen : s'.len = s.len)
    (hread : ∀ a, s'.readByte? a = s.readByte? a) : s'.fetch = s.fetch :=
  congrArg decode (State.window_congr hpos hlen hread)

/-- Settles O41: the decoder answers the same over both cell lists, and what is done with its answer ignores them. -/
theorem onlyBytesBelowLenMatter : Obligations.OnlyBytesBelowLenMatter := by
  intro s s' t hpos hout hstatus hlen hcfg hread h
  obtain ⟨m, rfl⟩ : ∃ m, s' = s.withMem m := ⟨_, State.eq_withMem hpos hout hstatus hlen hcfg⟩
  have hr := running_of_step_next h
  have hle := pos_le_len_of_step_next h
  have hrun : s.runDecoded s.fetch = .next t := (step_eq_runDecoded hr hle).symm.trans h
  calc step (s.withMem m)
    _ = (s.withMem m).runDecoded (s.withMem m).fetch := step_eq_runDecoded hr hle
    _ = (s.withMem m).runDecoded s.fetch := by rw [State.fetch_congr hpos hlen hread]
    _ = .next (t.withMem m) := State.runDecoded_withMem hrun m

end Sys2Proof.Machine

/-! SUPPORT and the statements of 30_encoding.md: the encoder and the decoder are inverse to one another (R51, R56, R65), the
fields of the bytes (R52 to R55), the lengths (R57, R63) and the literals (R61). -/

namespace Sys2Proof.Machine

/-! The trailing bytes of the five forms (R57). -/

theorem trail_register (rm : Sel) : trail 0b11#2 rm = 0 := rfl

theorem trail_direct : trail 0b00#2 0b110#3 = 2 := rfl

theorem trail_memory {rm : Sel} (h : rm ≠ 0b110#3) : trail 0b00#2 rm = 0 := by
  simp [trail, h]

theorem trail_disp8 (rm : Sel) : trail 0b01#2 rm = 1 := rfl

theorem trail_disp16 (rm : Sel) : trail 0b10#2 rm = 2 := rfl

/-! Decoding an encoding. -/

/-- R66: the catch-all row holds the first bytes that match neither pattern. -/
theorem wf_unsupported_iff (b0 : Byte) : (Instr.unsupported b0).wf = true ↔ classify b0 = .unsupported := by
  simp [Instr.wf, classify_unsupported_iff]

/-- The first byte gives the form, the ModRM byte the row, and a literal's two bytes the literal. -/
theorem decode_encode_append {i : Instr} (h : i.wf = true) (rest : List Byte) : decode (encode i ++ rest) = .instr i rest := by
  cases i with
  | movRegToRm w reg rm | movRmToReg w reg rm => simp [encode, decode_of_rm, decodeRm]
  | movRegToDirect w reg addr | movDirectToReg w reg addr => simp [encode, wordBytes, decode_of_rm, decodeRm]
  | movRegToMem w reg rm | movMemToReg w reg rm =>
    have hrm : rm ≠ 0b110#3 := bne_iff_ne.mp h
    simp [encode, decode_of_rm, decodeRm, hrm]
  | movRegToMemDisp8 w reg rm disp | movMemDisp8ToReg w reg rm disp => simp [encode, decode_of_rm, decodeRm]
  | movRegToMemDisp16 w reg rm disp | movMemDisp16ToReg w reg rm disp => simp [encode, wordBytes, decode_of_rm, decodeRm]
  | movImm8ToReg reg imm => simp [encode, decode_of_ri, decodeRi]
  | movImm16ToReg reg imm => simp [encode, wordBytes, decode_of_ri, decodeRi]
  | unsupported b0 => exact decode_of_unsupported ((wf_unsupported_iff b0).mp h) rest

/-- Settles O1: row by row. -/
theorem decodeOfEncodeIsIdentity : Obligations.DecodeOfEncodeIsIdentity :=
  fun _ rest h => decode_encode_append h rest

/-! The other direction: bytes that are not too few for their form are the encoding of some instruction, which by
`decode_encode_append` is the one decoded. -/

/-- R51, R57: any fields with the trailing bytes of their form are the encoding of the form's row for the direction. -/
theorem exists_encode_rmForm (d w : Bool) (md : BitVec 2) (reg rm : Sel) {tail : List Byte} (h : tail.length = trail md rm) :
    ∃ i : Instr, i.wf = true ∧ encode i = rmFirstByte d w :: modRmByte md reg rm :: tail := by
  rcases addressing_forms md rm with rfl | ⟨rfl, rfl⟩ | ⟨rfl, hrm⟩ | rfl | rfl
  · obtain rfl := List.length_eq_zero_iff.mp (h.trans (trail_register rm))
    cases d with
    | false => exact ⟨.movRegToRm w reg rm, rfl, rfl⟩
    | true => exact ⟨.movRmToReg w reg rm, rfl, rfl⟩
  · obtain ⟨lo, hi, rfl⟩ := List.length_eq_two.mp (h.trans trail_direct)
    rw [← wordBytes_littleEndian lo hi]
    cases d with
    | false => exact ⟨.movRegToDirect w reg (littleEndian lo hi), rfl, rfl⟩
    | true => exact ⟨.movDirectToReg w reg (littleEndian lo hi), rfl, rfl⟩
  · obtain rfl := List.length_eq_zero_iff.mp (h.trans (trail_memory hrm))
    cases d with
    | false => exact ⟨.movRegToMem w reg rm, bne_iff_ne.mpr hrm, rfl⟩
    | true => exact ⟨.movMemToReg w reg rm, bne_iff_ne.mpr hrm, rfl⟩
  · obtain ⟨lo, rfl⟩ := List.length_eq_one_iff.mp (h.trans (trail_disp8 rm))
    cases d with
    | false => exact ⟨.movRegToMemDisp8 w reg rm lo, rfl, rfl⟩
    | true => exact ⟨.movMemDisp8ToReg w reg rm lo, rfl, rfl⟩
  · obtain ⟨lo, hi, rfl⟩ := List.length_eq_two.mp (h.trans (trail_disp16 rm))
    rw [← wordBytes_littleEndian lo hi]
    cases d with
    | false => exact ⟨.movRegToMemDisp16 w reg rm (littleEndian lo hi), rfl, rfl⟩
    | true => exact ⟨.movMemDisp16ToReg w reg rm (littleEndian lo hi), rfl, rfl⟩

/-- R51: an RM instruction with its trailing bytes present. -/
theorem exists_encode_of_rm {b0 : Byte} (h : classify b0 = .rm) (b1 : Byte) {rest : List Byte}
    (hlen : trail (modField b1) (rmField b1) ≤ rest.length) :
    ∃ i rest', i.wf = true ∧ b0 :: b1 :: rest = encode i ++ rest' := by
  obtain ⟨i, hwf, hi⟩ := exists_encode_rmForm (dBit b0) (wBitRm b0) (modField b1) (regField b1) (rmField b1)
    (List.length_take_of_le hlen)
  rw [rmFirstByte_fields h, modRmByte_fields] at hi
  exact ⟨i, rest.drop _, hwf, by rw [hi, List.cons_append, List.cons_append, List.take_append_drop]⟩

/-- R56, R140: an RI instruction's immediate is there or the instruction is truncated. -/
theorem decode_of_ri_cases {b0 : Byte} (h : classify b0 = .ri) (rest : List Byte) :
    decode (b0 :: rest) = .truncated ∨ ∃ i rest', i.wf = true ∧ b0 :: rest = encode i ++ rest' := by
  obtain ⟨w, reg, rfl⟩ : ∃ w reg, b0 = riFirstByte w reg := ⟨_, _, (riFirstByte_fields h).symm⟩
  rw [decode_of_ri h]
  unfold decodeRi
  rw [wBitRi_riFirstByte]
  cases w with
  | false =>
    match rest with
    | [] => exact .inl rfl
    | lo :: rest => exact .inr ⟨.movImm8ToReg reg lo, rest, rfl, rfl⟩
  | true =>
    match rest with
    | [] | [_] => exact .inl rfl
    | lo :: hi :: rest =>
      refine .inr ⟨.movImm16ToReg reg (littleEndian lo hi), rest, rfl, ?_⟩
      rw [encode, wordBytes_littleEndian]
      rfl

/-- R144: any bytes are none at all, too few for their form, or an encoding and the bytes after it. -/
theorem decode_cases (bytes : List Byte) :
    decode bytes = .exhausted ∨ decode bytes = .truncated ∨ ∃ i rest, i.wf = true ∧ bytes = encode i ++ rest := by
  match bytes with
  | [] => exact .inl rfl
  | b0 :: rest =>
    right
    cases hc : classify b0 with
    | unsupported => exact .inr ⟨.unsupported b0, rest, (wf_unsupported_iff b0).mpr hc, rfl⟩
    | ri => exact decode_of_ri_cases hc rest
    | rm =>
      match rest with
      | [] => exact .inl (decode_of_rm_single hc)
      | b1 :: rest =>
        rcases Nat.lt_or_ge rest.length (trail (modField b1) (rmField b1)) with hmissing | hpresent
        · exact .inl ((decode_of_rm hc b1 rest).trans (decodeRm_of_missing hmissing))
        · exact .inr (exists_encode_of_rm hc b1 hpresent)

theorem eq_encode_append_of_decode {bytes rest : List Byte} {i : Instr} (h : decode bytes = .instr i rest) :
    i.wf = true ∧ bytes = encode i ++ rest := by
  rcases decode_cases bytes with hex | htr | ⟨i', rest', hwf, rfl⟩
  · cases hex.symm.trans h
  · cases htr.symm.trans h
  · cases (decode_encode_append hwf rest').symm.trans h
    exact ⟨hwf, rfl⟩

/-- Settles O2: the bytes are the encoding of some instruction, and O1 says which one is decoded. -/
theorem decodedBytesAreItsEncoding : Obligations.DecodedBytesAreItsEncoding :=
  fun _ _ _ h => eq_encode_append_of_decode h

/-! Lengths. -/

theorem length_of_decode {bytes rest : List Byte} {i : Instr} (h : decode bytes = .instr i rest) :
    bytes.length = instrLength i + rest.length := by
  obtain ⟨-, rfl⟩ := eq_encode_append_of_decode h
  rw [List.length_append, encode_length]

theorem lengthOf_of_rm {b0 : Byte} (h : classify b0 = .rm) (b1 : Byte) :
    lengthOf b0 b1 = some (2 + trail (modField b1) (rmField b1)) := by
  simp [lengthOf, h]

theorem lengthOf_of_ri {b0 : Byte} (h : classify b0 = .ri) (b1 : Byte) :
    lengthOf b0 b1 = some (if wBitRi b0 then 3 else 2) := by
  simp [lengthOf, h]

theorem lengthOf_of_unsupported {b0 : Byte} (h : classify b0 = .unsupported) (b1 : Byte) : lengthOf b0 b1 = none := by
  simp [lengthOf, h]

/-- R63: the first two bytes of an encoding have its length; the bytes after an unsupported one do not count. -/
theorem lengthOf_of_encode {b0 b1 : Byte} {rest rest' : List Byte} {i : Instr} (hwf : i.wf = true)
    (h : b0 :: b1 :: rest = encode i ++ rest') : lengthOf b0 b1 = none ∨ lengthOf b0 b1 = some (instrLength i) := by
  cases i with
  | movRegToMem w reg rm | movMemToReg w reg rm =>
    injection h with h0 h
    injection h with h1 h
    subst h0 h1
    have hrm : rm ≠ 0b110#3 := bne_iff_ne.mp hwf
    simp [lengthOf_of_rm, trail_memory hrm, instrLength]
  | movImm8ToReg reg imm | movImm16ToReg reg imm =>
    injection h with h0 h
    subst h0
    simp [lengthOf_of_ri, instrLength]
  | unsupported b =>
    injection h with h0 h
    subst h0
    exact .inl (lengthOf_of_unsupported ((wf_unsupported_iff b0).mp hwf) b1)
  | _ =>
    injection h with h0 h
    injection h with h1 h
    subst h0 h1
    simp [lengthOf_of_rm, trail, instrLength]

/-- R63: no instruction is shorter than 2 bytes or longer than 4. -/
theorem lengthOf_bounds {b0 b1 : Byte} {n : Nat} (h : lengthOf b0 b1 = some n) : 2 ≤ n ∧ n ≤ 4 := by
  cases hc : classify b0 with
  | rm =>
    have htrail := trail_le_two (modField b1) (rmField b1)
    rw [lengthOf_of_rm hc] at h
    cases h
    omega
  | ri =>
    rw [lengthOf_of_ri hc] at h
    cases h
    split <;> decide
  | unsupported => simp [lengthOf_of_unsupported hc] at h

theorem instrLength_of_decode {b0 b1 : Byte} {n : Nat} {rest rest' : List Byte} {i : Instr} (hn : lengthOf b0 b1 = some n)
    (h : decode (b0 :: b1 :: rest) = .instr i rest') : instrLength i = n := by
  obtain ⟨hwf, henc⟩ := eq_encode_append_of_decode h
  rcases lengthOf_of_encode hwf henc with hnone | hsome
  · cases hn.symm.trans hnone
  · exact (Option.some.inj (hn.symm.trans hsome)).symm

/-- Settles O8: an RM instruction has the length read off its first two bytes, and its bytes are that many. -/
theorem rmFormConsumesItsTrail : Obligations.RmFormConsumesItsTrail := by
  refine ⟨trail_register, trail_direct, fun _ => trail_memory, trail_disp8, trail_disp16, ?_⟩
  intro b0 b1 rest rest' i hrm h
  have hlen := length_of_decode h
  rw [instrLength_of_decode (lengthOf_of_rm hrm b1) h] at hlen
  simp only [List.length_cons] at hlen
  omega

/-- Settles O9: the table form by form; the consumption as for O8. -/
theorem lengthFromFirstTwoBytes : Obligations.LengthFromFirstTwoBytes := by
  intro b0 b1
  refine ⟨?_, fun n rest rest' i hn h => ?_⟩
  · cases hc : classify b0 with
    | rm =>
      rw [lengthOf_of_rm hc]
      refine congrArg some ?_
      generalize modField b1 = md, rmField b1 = rm
      revert md rm
      decide
    | ri =>
      rw [lengthOf_of_ri hc]
      cases wBitRi b0 <;> rfl
    | unsupported => exact lengthOf_of_unsupported hc b1
  · have hlen := length_of_decode h
    rw [instrLength_of_decode hn h] at hlen
    exact ⟨instrLength_of_decode hn h, hlen, lengthOf_bounds hn⟩

/-! The fields of the bytes. -/

/-- R55. -/
theorem toNat_eq_modRm_fields (b1 : Byte) :
    b1.toNat = 64 * (modField b1).toNat + 8 * (regField b1).toNat + (rmField b1).toNat := by
  rw [← bitsOf_modField, ← bitsOf_regField, ← bitsOf_rmField]
  simp only [bitsOf]
  omega

/-- A recognised first byte is no unsupported instruction. -/
theorem ne_unsupported_of_rm {b0 : Byte} (h : classify b0 = .rm) {i : Instr} (hwf : i.wf = true) : i ≠ .unsupported b0 := by
  rintro rfl
  cases h.symm.trans ((wf_unsupported_iff b0).mp hwf)

/-- Settles O7: two more bytes are as many as any form needs. -/
theorem modRmByteFields : Obligations.ModRmByteFields := by
  refine fun b1 => ⟨toNat_eq_modRm_fields b1, fun b0 lo hi rest hrm => ?_⟩
  have htrail : trail (modField b1) (rmField b1) ≤ (lo :: hi :: rest).length :=
    (trail_le_two _ _).trans (Nat.le_add_left 2 rest.length)
  obtain ⟨i, rest', hwf, henc⟩ := exists_encode_of_rm hrm b1 htrail
  exact ⟨i, rest', by rw [henc, decode_encode_append hwf], ne_unsupported_of_rm hrm hwf⟩

/-! The first byte: R52's tests are one another's by arithmetic on the byte's value, and R54's fields are its bits. -/

theorem classify_rm_iff_div (b0 : Byte) : classify b0 = .rm ↔ b0.toNat / 4 = 0b100010 := by
  rw [classify_rm_iff_bitsOf, bitsOf]
  omega

theorem classify_ri_iff_div (b0 : Byte) : classify b0 = .ri ↔ b0.toNat / 16 = 0b1011 := by
  rw [classify_ri_iff_bitsOf, bitsOf]
  omega

theorem classify_rm_iff_mask (b0 : Byte) : classify b0 = .rm ↔ b0 &&& 0xFC#8 = 0x88#8 := by
  revert b0; decide

theorem classify_ri_iff_mask (b0 : Byte) : classify b0 = .ri ↔ b0 &&& 0xF0#8 = 0xB0#8 := by
  revert b0; decide

theorem classify_rm_iff_range (b0 : Byte) : classify b0 = .rm ↔ 0x88 ≤ b0.toNat ∧ b0.toNat ≤ 0x8B := by
  rw [classify_rm_iff_div]
  omega

theorem classify_ri_iff_range (b0 : Byte) : classify b0 = .ri ↔ 0xB0 ≤ b0.toNat ∧ b0.toNat ≤ 0xBF := by
  rw [classify_ri_iff_div]
  omega

/-- Settles O4: the six tests, and that no value passes both divisions. -/
theorem classifierPatternTests : Obligations.ClassifierPatternTests :=
  fun b0 => ⟨classify_rm_iff_div b0, classify_rm_iff_mask b0, classify_rm_iff_range b0, classify_ri_iff_div b0,
    classify_ri_iff_mask b0, classify_ri_iff_range b0, by omega⟩

theorem classify_eq_ite (b0 : Byte) : classify b0 =
    if b0.toNat / 4 = 0b100010 then .rm else if b0.toNat / 16 = 0b1011 then .ri else .unsupported := by
  simp only [← classify_rm_iff_div, ← classify_ri_iff_div]
  cases classify b0 <;> rfl

/-- The values below `n` that pass a test which is membership in an interval are as many as the interval is long. -/
theorem length_filter_range_of_interval {n a b : Nat} (hb : b ≤ n) {p : Nat → Prop} [DecidablePred p]
    (hp : ∀ k < n, p k ↔ a ≤ k ∧ k < b) : ((List.range n).filter fun k => p k).length = b - a := by
  calc ((List.range n).filter fun k => p k).length
    _ = ((Finset.range n).filter p).card := rfl
    _ = (Finset.Ico a b).card := by
      congr 1
      ext k
      simp only [Finset.mem_filter, Finset.mem_range, Finset.mem_Ico]
      exact ⟨fun ⟨hk, hpk⟩ => (hp k hk).mp hpk, fun h => ⟨by omega, (hp k (by omega)).mpr h⟩⟩
    _ = b - a := Nat.card_Ico a b

/-- Every value has exactly one of the three forms. -/
theorem length_filter_forms (f : Nat → Form) (l : List Nat) :
    (l.filter fun n => f n = .rm).length + (l.filter fun n => f n = .ri).length +
      (l.filter fun n => f n = .unsupported).length = l.length := by
  induction l with
  | nil => rfl
  | cons n l ih =>
    rw [List.length_cons, ← ih]
    cases hf : f n <;> simp [hf] <;> omega

/-- Settles O5: the two recognised ranges are counted, the rest is what they leave of 256. -/
theorem classifierIsTotalWithCounts : Obligations.ClassifierIsTotalWithCounts := by
  have hrm : ((List.range 256).filter fun n => classify (BitVec.ofNat 8 n) = .rm).length = 0x8C - 0x88 :=
    length_filter_range_of_interval (by decide) fun k hk => by
      rw [classify_rm_iff_range, BitVec.toNat_ofNat]; omega
  have hri : ((List.range 256).filter fun n => classify (BitVec.ofNat 8 n) = .ri).length = 0xC0 - 0xB0 :=
    length_filter_range_of_interval (by decide) fun k hk => by
      rw [classify_ri_iff_range, BitVec.toNat_ofNat]; omega
  have hsum := length_filter_forms (fun n => classify (BitVec.ofNat 8 n)) (List.range 256)
  rw [List.length_range] at hsum
  exact ⟨classify_eq_ite, hrm, hri, by omega⟩

theorem getLsbD_iff_div_mod (b : Byte) (i : Nat) : b.getLsbD i = true ↔ b.toNat / 2 ^ i % 2 = 1 := by
  simp [BitVec.getLsbD, Nat.testBit_eq_decide_div_mod_eq]

/-- R54: the RI first bytes in the order of the table. -/
theorem riFirstByte_eq_add (w : Bool) (reg : Sel) :
    riFirstByte w reg = (if w then 0xB8#8 else 0xB0#8) + reg.setWidth 8 := by
  revert w reg; decide

/-- Settles O6: each field is a bit or the low bits of the byte's value; the table by evaluation. -/
theorem firstByteFields : Obligations.FirstByteFields := by
  refine ⟨fun b0 _ => ⟨getLsbD_iff_div_mod b0 1, ?_⟩, fun b0 _ => ⟨getLsbD_iff_div_mod b0 3, ?_⟩, rfl, rfl, rfl, rfl,
    fun r => ?_, fun r => ?_, by decide, by decide⟩
  · exact (getLsbD_iff_div_mod b0 0).trans (by rw [Nat.pow_zero, Nat.div_one])
  · exact (bitsOf_regFieldRi b0).symm.trans (by simp [bitsOf])
  · have hb : riFirstByte false r = 0xB0#8 + r.setWidth 8 := riFirstByte_eq_add false r
    exact hb ▸ ⟨wBitRi_riFirstByte false r, regFieldRi_riFirstByte false r⟩
  · have hb : riFirstByte true r = 0xB8#8 + r.setWidth 8 := riFirstByte_eq_add true r
    exact hb ▸ ⟨wBitRi_riFirstByte true r, regFieldRi_riFirstByte true r⟩

/-! Literals (R61). -/

theorem interp_byte (cfg : Cfg) (raw : Byte) : interp cfg raw =
    if cfg.signedLiterals then (if raw.toNat < 128 then (raw.toNat : Int) else raw.toNat - 256) else raw.toNat :=
  (interpRaw_toNat cfg raw).symm

theorem interp_word (cfg : Cfg) (raw : Word) : interp cfg raw =
    if cfg.signedLiterals then (if raw.toNat < 32768 then (raw.toNat : Int) else raw.toNat - 65536) else raw.toNat :=
  (interpRaw_toNat cfg raw).symm

/-- R61 in 16-bit terms: the extension keeps the value in the reading it belongs to. -/
theorem interp_extend (cfg : Cfg) (raw : Byte) :
    interp cfg raw = interp cfg (if cfg.signedLiterals then raw.signExtend 16 else raw.zeroExtend 16) := by
  unfold interp
  cases cfg.signedLiterals with
  | false => exact congrArg Nat.cast (BitVec.toNat_setWidth_of_le (by decide)).symm
  | true => exact (BitVec.toInt_signExtend_of_le (by decide)).symm

theorem literalInRange_interp (cfg : Cfg) (raw : Word) : literalInRange cfg (interp cfg raw) := by
  rw [← interpRaw_toNat]
  exact literalInRange_interpRaw cfg (by decide) raw.isLt

/-- Settles O13: the formula is the pseudocode's; each corner value by evaluation. -/
theorem literalInterpretation : Obligations.LiteralInterpretation :=
  ⟨interp_byte, interp_word, interp_extend, literalInRange_interp,
    fun cfg h => by simp [interp, h], fun cfg h => by simp [interp, h]⟩

end Sys2Proof.Machine

/-! SUPPORT and the statements of 40_decode_step.md: what a step of a running block is, where runs end, and what two states that
differ in the values of their literals share (R80 to R89). -/

namespace Sys2Proof.Machine

/-! Two states equal up to the values of their literals (R88). The three things a step can do keep them so; what it emits is an
instruction's record, whose literals alone depend on the configuration. -/

/-- What two configurations may make of one operand: the same up to a literal's value, and the same with equal signedness. -/
structure Operand.Alike (cfg cfg' : Cfg) (o o' : Operand) : Prop where
  shape : Entry.shape.opShape o' = Entry.shape.opShape o
  same : cfg'.signedLiterals = cfg.signedLiterals → o' = o

theorem Operand.Alike.refl {cfg cfg' : Cfg} (o : Operand) : Operand.Alike cfg cfg' o o := ⟨rfl, fun _ => rfl⟩

/-- R61: of the configuration only the signedness is read. -/
theorem interp_congr {cfg cfg' : Cfg} (h : cfg'.signedLiterals = cfg.signedLiterals) {n : Nat} (raw : BitVec n) :
    interp cfg' raw = interp cfg raw := by
  simp only [interp, h]

theorem Operand.Alike.disp {cfg cfg' : Cfg} (rm : Sel) {n : Nat} (disp : BitVec n) :
    Operand.Alike cfg cfg' (dispOperand cfg rm disp) (dispOperand cfg' rm disp) :=
  ⟨rfl, fun h => by simp only [dispOperand, interp_congr h]⟩

theorem Operand.Alike.imm {cfg cfg' : Cfg} {n : Nat} (imm : BitVec n) :
    Operand.Alike cfg cfg' (immOperand cfg imm) (immOperand cfg' imm) :=
  ⟨rfl, fun h => by simp only [immOperand, interp_congr h]⟩

/-- What steps from `s` to `t` and from `s'` to `t'` keep: the agreement, and equal OUTs where the signedness is equal. -/
structure State.AlikeAfter (s s' t t' : State) : Prop where
  agree : t.SameUpToLiterals t'
  sameOut : s'.cfg.signedLiterals = s.cfg.signedLiterals → s'.out = s.out → t'.out = t.out

section Agreement

variable {s s' : State} (h : s.SameUpToLiterals s')
include h

theorem State.SameUpToLiterals.alike_finish : s.AlikeAfter s' s.finish s'.finish :=
  ⟨⟨h.policy, h.len, h.bytes, h.pos, rfl, h.out⟩, fun _ hout => hout⟩

theorem State.SameUpToLiterals.alike_fail (k : FailureKind) : s.AlikeAfter s' (s.fail k) (s'.fail k) :=
  ⟨⟨h.policy, h.len, h.bytes, h.pos, congrArg (Status.failed k) h.pos, h.out⟩, fun _ hout => hout⟩

theorem State.SameUpToLiterals.alike_emit {e e' : Entry} (n : Nat) (hshape : e'.shape = e.shape)
    (hsame : s'.cfg.signedLiterals = s.cfg.signedLiterals → e' = e) : s.AlikeAfter s' (s.emit e n) (s'.emit e' n) where
  agree :=
    { policy := h.policy
      len := h.len
      bytes := h.bytes
      pos := congrArg (· + n) h.pos
      status := h.status
      out := by simp [h.out, hshape] }
  sameOut hsigned hout := by simp [hout, hsame hsigned]

theorem State.SameUpToLiterals.alike_emitMov {t : State} {n : Nat} {dst src dst' src' : Operand}
    (hdst : Operand.Alike s.cfg s'.cfg dst dst') (hsrc : Operand.Alike s.cfg s'.cfg src src')
    (ht : s.emitMov n dst src = .next t) : ∃ t', s'.emitMov n dst' src' = .next t' ∧ s.AlikeAfter s' t t' := by
  rcases State.emitMov_next ht with ⟨htrunc, rfl⟩ | ⟨hfit, rfl⟩
  · rw [← h.pos, ← h.len] at htrunc
    exact ⟨_, State.emitMov_truncates htrunc dst' src', h.alike_fail _⟩
  · rw [← h.pos, ← h.len] at hfit
    refine ⟨_, State.emitMov_fits hfit dst' src', h.alike_emit n ?_ fun hsigned => ?_⟩
    · rw [Entry.shape, Entry.shape, hdst.shape, hsrc.shape]
    · rw [hdst.same hsigned, hsrc.same hsigned]

theorem State.SameUpToLiterals.alike_execUnsupported {t : State} {b0 : Byte} (ht : execUnsupported b0 s = .next t) :
    ∃ t', execUnsupported b0 s' = .next t' ∧ s.AlikeAfter s' t t' := by
  rcases execUnsupported_next ht with ⟨habort, rfl⟩ | ⟨hskip, rfl⟩
  · exact ⟨_, execUnsupported_of_abort (h.policy.trans habort) b0, h.alike_fail _⟩
  · refine ⟨_, execUnsupported_of_skip (h.policy.trans hskip) b0, h.alike_emit 1 ?_ fun _ => ?_⟩ <;> rw [h.pos]

/-- R67: the rows differ in which of their operands holds a literal. -/
theorem State.SameUpToLiterals.alike_exec {t : State} {i : Instr} (ht : exec i s = .next t) :
    ∃ t', exec i s' = .next t' ∧ s.AlikeAfter s' t t' := by
  cases i with
  | unsupported b0 => exact h.alike_execUnsupported (b0 := b0) ht
  | movRegToMemDisp8 w reg rm disp | movRegToMemDisp16 w reg rm disp => exact h.alike_emitMov (.disp rm disp) (.refl _) ht
  | movMemDisp8ToReg w reg rm disp | movMemDisp16ToReg w reg rm disp => exact h.alike_emitMov (.refl _) (.disp rm disp) ht
  | movImm8ToReg reg imm | movImm16ToReg reg imm => exact h.alike_emitMov (.refl _) (.imm imm) ht
  | _ => exact h.alike_emitMov (.refl _) (.refl _) ht

theorem State.SameUpToLiterals.alike_runDecoded {t : State} {d : Decoded} (ht : s.runDecoded d = .next t) :
    ∃ t', s'.runDecoded d = .next t' ∧ s.AlikeAfter s' t t' := by
  cases d with
  | instr i rest => exact h.alike_exec ht
  | truncated => cases ht; exact ⟨_, rfl, h.alike_fail _⟩
  | exhausted => cases ht; exact ⟨_, rfl, h.alike_finish⟩

/-- The decoder sees the same bytes in both states. -/
theorem State.SameUpToLiterals.alike_step {t : State} (ht : step s = .next t) :
    ∃ t', step s' = .next t' ∧ s.AlikeAfter s' t t' := by
  have hr := running_of_step_next ht
  have hle := pos_le_len_of_step_next ht
  rw [step_eq_runDecoded hr hle] at ht
  rw [step_eq_runDecoded (h.status.trans hr) (by rw [h.pos, h.len]; exact hle), State.fetch_congr h.pos h.len h.bytes]
  exact h.alike_runDecoded ht

/-- Whether a step has a next state is told by what the two states share. -/
theorem State.SameUpToLiterals.step_answers_iff : (∃ t, step s' = .next t) ↔ ∃ t, step s = .next t := by
  rw [(stepAnswersUnlessTerminal s').1, (stepAnswersUnlessTerminal s).1, h.status, h.pos, h.len]

end Agreement

/-- Settles O58: the same bytes decode to the same instruction, whose record differs in the readings of its literals only. -/
theorem stepKeepsAgreementUpToLiterals : Obligations.StepKeepsAgreementUpToLiterals := by
  intro s s' t h ht
  obtain ⟨t', ht', halike⟩ := h.alike_step ht
  exact ⟨t', ht', halike.agree, halike.sameOut⟩

/-! A step of a running block by the bytes at the cursor (R80 to R84). -/

/-- Settles O33: the three answers of the decoder at the cursor. -/
theorem stepRunsDecodedInstruction : Obligations.StepRunsDecodedInstruction :=
  fun _ hr => ⟨fun hend => step_of_exhausted hr hend.le (fetch_of_end hend), fun hlt _ _ hf => step_of_instr hr hlt.le hf,
    fun hlt hf => step_of_truncated hr hlt.le hf⟩

/-- Settles O42: below the end the decoder with its arms is the pseudocode's arm, at the end both finish. -/
theorem stepRefinesPseudocode : Obligations.StepRefinesPseudocode :=
  fun _ => step_eq_refStep

/-- Bytes that stand in the buffer end within it. -/
theorem State.Holds.end_le_len {s : State} {a : Nat} {bytes : List Byte} (h : s.Holds a bytes) (ha : a ≤ s.len) :
    a + bytes.length ≤ s.len := by
  by_contra hover
  have hread := h (s.len - a) (by omega)
  rw [State.readByte?, if_neg (by omega)] at hread
  cases hread

/-- Bytes that stand at the cursor, no more than an instruction has, are the first of the window. -/
theorem State.Holds.prefix_window {s : State} {bytes : List Byte} (h : s.Holds s.pos bytes) (hpos : s.pos ≤ s.len)
    (hmax : bytes.length ≤ maxLength) : bytes <+: s.window := by
  have hend := State.Holds.end_le_len h hpos
  have hlen : bytes.length ≤ s.window.length := by rw [State.window_length]; omega
  refine List.prefix_iff_getElem.mpr ⟨hlen, fun k hk => ?_⟩
  apply Option.some.inj
  rw [← h k hk, State.window_getElem]

theorem step_of_holds {s : State} {i : Instr} (hr : s.status = .running) (hwf : i.wf = true) (h : s.Holds s.pos (encode i)) :
    step s = exec i s := by
  have hpos : s.pos < s.len := (State.readByte?_eq_some.mp (h 0 (by rw [encode_length]; exact instrLength_pos i))).1
  obtain ⟨rest, hrest⟩ := State.Holds.prefix_window h hpos.le (by rw [encode_length]; exact instrLength_le i)
  refine step_of_instr (rest := rest) hr hpos.le ?_
  rw [State.fetch, ← hrest, decode_encode_append hwf]

/-- Settles O34: the window begins with the instruction's encoding, which the decoder reads back whatever follows. -/
theorem stepRunsInstructionAtCursor : Obligations.StepRunsInstructionAtCursor :=
  fun _ _ => step_of_holds

/-- R83: an unsupported byte is an instruction of its own. -/
theorem step_of_unsupported {s : State} {b0 : Byte} (hr : s.status = .running) (hb : s.readByte? s.pos = some b0)
    (hc : classify b0 = .unsupported) : step s = execUnsupported b0 s := by
  refine step_of_holds (i := .unsupported b0) hr ((wf_unsupported_iff b0).mpr hc) fun k hk => ?_
  obtain rfl : k = 0 := Nat.lt_one_iff.mp hk
  exact hb

/-- Settles O26: the unsupported arm under `Abort`, reached by a step on the byte. -/
theorem unsupportedByteAborts : Obligations.UnsupportedByteAborts := by
  intro s b0 hp
  have harm := execUnsupported_of_abort hp b0
  exact ⟨harm, fun hr hb hc => (step_of_unsupported hr hb hc).trans harm⟩

/-- Settles O27: the unsupported arm under `Skip`, reached by a step on the byte. -/
theorem unsupportedByteSkips : Obligations.UnsupportedByteSkips := by
  intro s b0 hp
  have harm := execUnsupported_of_skip hp b0
  exact ⟨harm, fun hr hb hc => (step_of_unsupported hr hb hc).trans harm⟩

/-- Settles O35: below the end a step fails or stays Running. -/
theorem doneExactlyAtEndOfBuffer : Obligations.DoneExactlyAtEndOfBuffer := by
  intro s t hr h
  rcases step_next h with ⟨hend, rfl⟩ | ⟨hlt, k, -, rfl⟩ | ⟨hlt, e, n, -, rfl⟩
  · exact ⟨iff_of_true rfl hend, fun _ => rfl⟩
  · exact ⟨iff_of_false (by simp) hlt.ne, fun hd => by cases hd⟩
  · have hd : (s.emit e n).status ≠ .done := by simp [hr]
    exact ⟨iff_of_false hd hlt.ne, fun hdone => absurd hdone hd⟩

/-! Any number of steps (R81, R85, R89). -/

theorem steps_succ_of_next {s t : State} (h : step s = .next t) (k : Nat) : steps (k + 1) s = steps k t := by
  simp [steps, h]

theorem steps_of_no_next {s : State} (h : ∀ t, step s ≠ .next t) (k : Nat) : steps k s = s := by
  cases k with
  | zero => rfl
  | succ k =>
    unfold steps
    split
    next t ht => exact absurd ht (h t)
    next => rfl
    next => rfl

theorem no_next_of_not_running {s : State} (h : s.status ≠ .running) (t : State) : step s ≠ .next t :=
  fun ht => h (running_of_step_next ht)

theorem steps_of_not_running {s : State} (h : s.status ≠ .running) (k : Nat) : steps k s = s :=
  steps_of_no_next (no_next_of_not_running h) k

/-- Settles O36: only a running block has a next state, and a reset block is running. -/
theorem terminalStatusIsFinal : Obligations.TerminalStatusIsFinal :=
  ⟨fun _ h => ⟨no_next_of_not_running h, steps_of_not_running h⟩, fun _ _ => rfl⟩

theorem steps_add (j k : Nat) (s : State) : steps (j + k) s = steps k (steps j s) := by
  induction j generalizing s with
  | zero => rw [Nat.zero_add, steps]
  | succ j ih =>
    rw [Nat.succ_add]
    by_cases h : ∃ t, step s = .next t
    · obtain ⟨t, ht⟩ := h
      rw [steps_succ_of_next ht, steps_succ_of_next ht, ih]
    · have hstuck := not_exists.mp h
      rw [steps_of_no_next hstuck, steps_of_no_next hstuck, steps_of_no_next hstuck]

/-- R86, R89: each step that stays Running moves the cursor forward, so the bytes left bound the steps left. -/
theorem steps_not_running {k : Nat} {s : State} (hpos : s.pos ≤ s.len) (hk : s.len < s.pos + k) :
    (steps k s).status ≠ .running := by
  induction k generalizing s with
  | zero => omega
  | succ k ih =>
    by_cases hr : s.status = .running
    · obtain ⟨t, ht⟩ := step_answers hr hpos
      rw [steps_succ_of_next ht]
      by_cases htr : t.status = .running
      · obtain ⟨i, rest, -, -, hadv, hle⟩ := cursorAdvancesByInstructionLength s t ht htr
        have hlen := (step_sameInputs ht).len
        exact ih hle (by omega)
      · rwa [steps_of_not_running htr]
    · rwa [steps_of_not_running hr]

/-- Every entry accounts for at least one byte before the cursor. -/
theorem step_out_length_le_pos {s t : State} (hs : s.out.length ≤ s.pos) (h : step s = .next t) : t.out.length ≤ t.pos := by
  rcases step_next h with ⟨-, rfl⟩ | ⟨-, k, -, rfl⟩ | ⟨hlt, e, n, harm, rfl⟩
  · exact hs
  · exact hs
  · obtain ⟨hn, -, -⟩ := refArm_emits hlt harm
    rw [State.emit_out, State.emit_pos, List.length_append, List.length_singleton]
    omega

theorem runOf_not_running (bytes : List Byte) (cfg : Cfg) : (runOf bytes cfg).status ≠ .running :=
  steps_not_running (Nat.zero_le _) (by simp)

/-- Settles O49: the cursor bounds the steps and the entries, and LEN the cursor; the final state is terminal. -/
theorem runTerminates : Obligations.RunTerminates := by
  intro bytes cfg
  refine ⟨runOf_not_running bytes cfg, ?_, fun k hk => ?_⟩
  · calc (runOf bytes cfg).out.length
      _ ≤ (runOf bytes cfg).pos := runOf_keeps (fun _ _ => step_out_length_le_pos) bytes cfg (Nat.le_refl 0)
      _ ≤ (runOf bytes cfg).len := (runOf_inv bytes cfg).posLe
      _ = bytes.length := (runOf_sameInputs bytes cfg).len
  · obtain ⟨j, rfl⟩ := Nat.exists_eq_add_of_le hk
    rw [steps_add]
    exact steps_of_not_running (runOf_not_running bytes cfg) j

/-! Two runs (R88). -/

theorem State.AlikeAfter.trans {s s' t t' u u' : State} (h : s.AlikeAfter s' t t') (h' : t.AlikeAfter t' u u')
    (hin : s.SameInputs t) (hin' : s'.SameInputs t') : s.AlikeAfter s' u u' where
  agree := h'.agree
  sameOut hsigned hout := h'.sameOut (by rw [hin.cfg, hin'.cfg, hsigned]) (h.sameOut hsigned hout)

/-- The two states step together and stop together. -/
theorem State.SameUpToLiterals.alike_steps {s s' : State} (h : s.SameUpToLiterals s') (k : Nat) :
    s.AlikeAfter s' (steps k s) (steps k s') := by
  induction k generalizing s s' with
  | zero => exact ⟨h, fun _ hout => hout⟩
  | succ k ih =>
    by_cases hs : ∃ t, step s = .next t
    · obtain ⟨t, ht⟩ := hs
      obtain ⟨t', ht', halike⟩ := h.alike_step ht
      rw [steps_succ_of_next ht, steps_succ_of_next ht']
      exact halike.trans (ih halike.agree) (step_sameInputs ht) (step_sameInputs ht')
    · have hs' := mt h.step_answers_iff.mp hs
      rw [steps_of_no_next (not_exists.mp hs), steps_of_no_next (not_exists.mp hs')]
      exact ⟨h, fun _ hout => hout⟩

theorem State.start_sameUpToLiterals (bytes : List Byte) {cfg cfg' : Cfg} (h : cfg'.policy = cfg.policy) :
    (State.start bytes cfg).SameUpToLiterals (State.start bytes cfg') :=
  ⟨h, rfl, fun _ => rfl, rfl, rfl, rfl⟩

/-- Settles O51: two resets on one buffer under one policy agree, and the step of O58 keeps them so in lockstep. -/
theorem signednessChangesLiteralValuesOnly : Obligations.SignednessChangesLiteralValuesOnly := by
  intro bytes cfg cfg' hpolicy
  have h : (State.start bytes cfg).AlikeAfter (State.start bytes cfg') (runOf bytes cfg) (runOf bytes cfg') :=
    (State.start_sameUpToLiterals bytes hpolicy).alike_steps _
  exact ⟨h.agree.status, h.agree.pos, h.agree.out, fun hsigned => h.sameOut hsigned rfl⟩

end Sys2Proof.Machine

/-! SUPPORT and the statements of 41_mov_rm_reg.md: the template of the instructions (R100 to R109) proved once for any
instruction whose arm ends in `State.emitMov`, and what a step of the RM form emits, by the resolver (R90 to R98). -/

namespace Sys2Proof.Machine

/-! A buffer that ends inside an instruction. -/

/-- R84: the decoder sees no byte only at the end of the buffer. -/
theorem fetch_ne_exhausted {s : State} (hr : s.status = .running) (h : s.pos < s.len) : s.fetch ≠ .exhausted :=
  fun hf => h.ne ((doneExactlyAtEndOfBuffer s _ hr (step_of_exhausted hr h.le hf)).1.mp rfl)

/-- No encoding begins with another one (R65): the first bytes of an encoding, short of all of it, decode to no
instruction. -/
theorem decode_take_encode_ne_instr {i : Instr} (hwf : i.wf = true) {k : Nat} (hk : k < instrLength i) (i' : Instr)
    (rest : List Byte) : decode ((encode i).take k) ≠ .instr i' rest := by
  intro h
  obtain ⟨hwf', htake⟩ := eq_encode_append_of_decode h
  have hwhole : encode i = encode i' ++ (rest ++ (encode i).drop k) := by
    rw [← List.append_assoc, ← htake, List.take_append_drop]
  have hself := decode_encode_append hwf []
  rw [List.append_nil, hwhole, decode_encode_append hwf'] at hself
  injection hself with _ hrest
  obtain ⟨-, hdrop⟩ := List.append_eq_nil_iff.mp hrest
  rw [List.drop_eq_nil_iff, encode_length] at hdrop
  omega

/-- Bytes that stand at the cursor and reach the end of the buffer are the whole window. -/
theorem State.Holds.eq_window {s : State} {bytes : List Byte} (h : s.Holds s.pos bytes) (hlen : s.len = s.pos + bytes.length)
    (hmax : bytes.length ≤ maxLength) : bytes = s.window := by
  refine (State.Holds.prefix_window h (by omega) hmax).eq_of_length ?_
  rw [State.window_length]
  omega

/-- R140: a buffer that ends after the first bytes of an instruction truncates it. -/
theorem step_of_holds_take {s : State} {i : Instr} {k : Nat} (hr : s.status = .running) (hwf : i.wf = true) (hk : 0 < k)
    (hkn : k < instrLength i) (hlen : s.len = s.pos + k) (h : s.Holds s.pos ((encode i).take k)) :
    step s = .next (s.fail .truncatedInput) := by
  have htake : ((encode i).take k).length = k := List.length_take_of_le (by rw [encode_length]; exact hkn.le)
  have hwindow : (encode i).take k = s.window :=
    State.Holds.eq_window h (by omega) (by have := instrLength_le i; omega)
  cases hf : s.fetch with
  | exhausted => exact absurd hf (fetch_ne_exhausted hr (by omega))
  | truncated => exact step_of_truncated hr (by omega) hf
  | instr i' rest =>
    rw [State.fetch, ← hwindow] at hf
    exact absurd hf (decode_take_encode_ne_instr hwf hkn i' rest)

/-! The template of an instruction (41_mov_rm_reg.md section 2). -/

/-- An encoding that stands in the buffer ends within it: its last byte is there to be read. -/
theorem State.Holds.encode_fits {s : State} {a : Nat} {i : Instr} (h : s.Holds a (encode i)) : a + instrLength i ≤ s.len := by
  have hpos := instrLength_pos i
  have hlast := h (instrLength i - 1) (by rw [encode_length]; omega)
  have hlt := (State.readByte?_eq_some.mp hlast).1
  omega

/-- The template holds of every well-formed instruction whose arm ends in `State.emitMov` with the template's operands: the
arm gives completion and truncation, and a step reaches the arm, or truncates, by the bytes at the cursor. -/
theorem movRule_of_exec {i : Instr} {n : Nat} {bytes : List Byte} {dst src : Cfg → Operand} (hwf : i.wf = true)
    (hn : instrLength i = n) (hbytes : encode i = bytes)
    (hexec : ∀ s, exec i s = s.emitMov n (dst s.cfg) (src s.cfg)) : MovRule i n bytes dst src := by
  subst hn hbytes
  refine ⟨encode_length i, fun s hfit => ?_, fun s htrunc => ?_, fun s hr hb => ?_, fun s k hr hk hkn hlen hb => ?_⟩
  · exact (hexec s).trans (State.emitMov_fits hfit _ _)
  · exact (hexec s).trans (State.emitMov_truncates htrunc _ _)
  · exact (step_of_holds hr hwf hb).trans ((hexec s).trans (State.emitMov_fits hb.encode_fits _ _))
  · exact step_of_holds_take hr hwf hk hkn hlen hb

/-- R35: a 16-bit literal in buffer order, by the order in which the statements put its bytes together. -/
theorem wordBytes_append (lo hi : Byte) : wordBytes (hi ++ lo) = [lo, hi] := wordBytes_littleEndian lo hi

/-! The ten instructions: the template with each rule's bytes and operands. -/

/-- Settles O14: the template, at R100's bytes and operands. -/
theorem movRegToRmEmitsOrTruncates : Obligations.MovRegToRmEmitsOrTruncates :=
  fun _ _ _ => movRule_of_exec rfl rfl rfl fun _ => rfl

/-- Settles O15: the template, at R101's bytes and operands. -/
theorem movRmToRegEmitsOrTruncates : Obligations.MovRmToRegEmitsOrTruncates :=
  fun _ _ _ => movRule_of_exec rfl rfl rfl fun _ => rfl

/-- Settles O16: the template, at R102's bytes and operands; `rm` other than `110` makes the encoding one of R102's. -/
theorem movRegToMemEmitsOrTruncates : Obligations.MovRegToMemEmitsOrTruncates :=
  fun _ _ _ hrm => movRule_of_exec (bne_iff_ne.mpr hrm) rfl rfl fun _ => rfl

/-- Settles O17: the template, at R103's bytes and operands; `rm` other than `110` makes the encoding one of R103's. -/
theorem movMemToRegEmitsOrTruncates : Obligations.MovMemToRegEmitsOrTruncates :=
  fun _ _ _ hrm => movRule_of_exec (bne_iff_ne.mpr hrm) rfl rfl fun _ => rfl

/-- Settles O18: the template, at R104's bytes and operands. -/
theorem movRegToDirectEmitsOrTruncates : Obligations.MovRegToDirectEmitsOrTruncates :=
  fun _ _ lo hi => movRule_of_exec rfl rfl (by rw [encode, wordBytes_append lo hi]; rfl) fun _ => rfl

/-- Settles O19: the template, at R105's bytes and operands. -/
theorem movDirectToRegEmitsOrTruncates : Obligations.MovDirectToRegEmitsOrTruncates :=
  fun _ _ lo hi => movRule_of_exec rfl rfl (by rw [encode, wordBytes_append lo hi]; rfl) fun _ => rfl

/-- Settles O20: the template, at R106's bytes and operands. -/
theorem movRegToMemDisp8EmitsOrTruncates : Obligations.MovRegToMemDisp8EmitsOrTruncates :=
  fun _ _ _ _ => movRule_of_exec rfl rfl rfl fun _ => rfl

/-- Settles O21: the template, at R107's bytes and operands. -/
theorem movMemDisp8ToRegEmitsOrTruncates : Obligations.MovMemDisp8ToRegEmitsOrTruncates :=
  fun _ _ _ _ => movRule_of_exec rfl rfl rfl fun _ => rfl

/-- Settles O22: the template, at R108's bytes and operands. -/
theorem movRegToMemDisp16EmitsOrTruncates : Obligations.MovRegToMemDisp16EmitsOrTruncates :=
  fun _ _ _ lo hi => movRule_of_exec rfl rfl (by rw [encode, wordBytes_append lo hi]; rfl) fun _ => rfl

/-- Settles O23: the template, at R109's bytes and operands. -/
theorem movMemDisp16ToRegEmitsOrTruncates : Obligations.MovMemDisp16ToRegEmitsOrTruncates :=
  fun _ _ _ lo hi => movRule_of_exec rfl rfl (by rw [encode, wordBytes_append lo hi]; rfl) fun _ => rfl

/-- Settles O30: both arms emit the same record; the first bytes differ in the direction bit. -/
theorem registerMovesHaveTwoEncodings : Obligations.RegisterMovesHaveTwoEncodings := by
  refine fun _ _ _ _ => ⟨rfl, fun h => ?_⟩
  have hd : dBit (rmFirstByte false _) = dBit (rmFirstByte true _) := congrArg dBit (List.cons.inj h).1
  simp at hd

/-! What a step of the RM form emits. -/

/-- R91: the operand beside the register, as the resolver reads it from the bytes at the cursor. -/
def State.rmOperand (s : State) (b0 b1 : Byte) : Operand :=
  resolveRaw s (modField b1).toNat (rmField b1).toNat (wBitRm b0).toNat s.pos

/-- R97: the record of the RM form. -/
def State.rmRecord (s : State) (b0 b1 : Byte) : Entry :=
  if dBit b0 then .mov (regOperand (wBitRm b0) (regField b1)) (s.rmOperand b0 b1)
  else .mov (s.rmOperand b0 b1) (regOperand (wBitRm b0) (regField b1))

theorem State.rmMove_eq_emitMov (s : State) (b0 b1 : Byte) : ∃ dst src,
    s.rmMove b0 b1 = s.emitMov (2 + trail (modField b1) (rmField b1)) dst src ∧ s.rmRecord b0 b1 = .mov dst src := by
  unfold State.rmMove State.rmRecord
  cases dBit b0 with
  | true => exact ⟨_, _, rfl, rfl⟩
  | false => exact ⟨_, _, rfl, rfl⟩

/-- A step on an RM first byte and its ModRM byte is the form's move. -/
theorem step_of_rm {s : State} {b0 b1 : Byte} (hr : s.status = .running) (hb : s.Holds s.pos [b0, b1])
    (hc : classify b0 = .rm) : step s = s.rmMove b0 b1 := by
  obtain ⟨h0, rfl⟩ := State.readByte?_eq_some.mp (hb 0 Nat.two_pos)
  obtain ⟨h1, rfl⟩ := State.readByte?_eq_some.mp (hb 1 Nat.one_lt_two)
  rw [step_eq_runDecoded hr (Nat.le_of_lt h0), State.fetch_eq_decode_bytesFrom, State.bytesFrom_of_lt (by decide) h0,
    State.bytesFrom_of_lt (by decide) h1, decode_of_rm hc, runDecoded_decodeRm _ _ h1]

/-- R90: where it emits, its bytes are in the buffer, and it emits the form's record and passes them. -/
theorem step_of_rm_emits {s t : State} {b0 b1 : Byte} (hr : s.status = .running) (hb : s.Holds s.pos [b0, b1])
    (hc : classify b0 = .rm) (h : step s = .next t) (ht : t.status = .running) :
    s.pos + (2 + trail (modField b1) (rmField b1)) ≤ s.len ∧
    t = s.emit (s.rmRecord b0 b1) (2 + trail (modField b1) (rmField b1)) := by
  obtain ⟨dst, src, hmove, hrecord⟩ := s.rmMove_eq_emitMov b0 b1
  rw [step_of_rm hr hb hc, hmove] at h
  rcases State.emitMov_next h with ⟨-, rfl⟩ | ⟨hfit, rfl⟩
  · cases ht
  · exact ⟨hfit, by rw [hrecord]⟩

/-- The byte at an offset below LEN. -/
theorem State.readByte?_of_lt {s : State} {a : Nat} (h : a < s.len) : s.readByte? a = some (Memory.read s.mem a) :=
  State.readByte?_eq_some.mpr ⟨h, rfl⟩

section Resolver

variable (s : State) (b0 : Byte) {b1 : Byte}

theorem State.rmOperand_register (h : modField b1 = 0b11#2) : s.rmOperand b0 b1 = regOperand (wBitRm b0) (rmField b1) := by
  rw [State.rmOperand, resolveRaw_toNat, if_pos h]

theorem State.rmOperand_direct (hmod : modField b1 = 0b00#2) (hrm : rmField b1 = 0b110#3) : s.rmOperand b0 b1 =
    .directAddress (littleEndian (Memory.read s.mem (s.pos + 2)) (Memory.read s.mem (s.pos + 3))) := by
  rw [State.rmOperand, resolveRaw_toNat]
  simp [hmod, hrm]

theorem State.rmOperand_memory (hmod : modField b1 = 0b00#2) (hrm : rmField b1 ≠ 0b110#3) :
    s.rmOperand b0 b1 = memOperand (rmField b1) := by
  rw [State.rmOperand, resolveRaw_toNat]
  simp [hmod, hrm]

theorem State.rmOperand_disp8 (hmod : modField b1 = 0b01#2) :
    s.rmOperand b0 b1 = dispOperand s.cfg (rmField b1) (Memory.read s.mem (s.pos + 2)) := by
  rw [State.rmOperand, resolveRaw_toNat]
  simp [hmod]

theorem State.rmOperand_disp16 (hmod : modField b1 = 0b10#2) : s.rmOperand b0 b1 =
    dispOperand s.cfg (rmField b1) (littleEndian (Memory.read s.mem (s.pos + 2)) (Memory.read s.mem (s.pos + 3))) := by
  rw [State.rmOperand, resolveRaw_toNat]
  simp [hmod]

end Resolver

/-- Settles O28: the record is the form's, and each `mod` gives the resolver's operand and the number of trailing bytes. -/
theorem rmFormOperands : Obligations.RmFormOperands := by
  intro s t b0 b1 hr hb hc h ht
  obtain ⟨hfit, rfl⟩ := step_of_rm_emits hr hb hc h ht
  refine ⟨s.rmOperand b0 b1, rfl, fun hmod => ?_, fun hmod hrm => ?_, fun hmod => ?_, fun hmod => ?_⟩
  · exact ⟨s.rmOperand_register b0 hmod, by rw [State.emit_pos, hmod, trail_register]⟩
  · exact ⟨s.rmOperand_memory b0 hmod hrm, by rw [State.emit_pos, hmod, trail_memory hrm]⟩
  · rw [hmod, trail_disp8] at hfit ⊢
    exact ⟨_, State.readByte?_of_lt (by omega), s.rmOperand_disp8 b0 hmod, rfl⟩
  · rw [hmod, trail_disp16] at hfit ⊢
    exact ⟨_, _, State.readByte?_of_lt (by omega), State.readByte?_of_lt (by omega), s.rmOperand_disp16 b0 hmod, rfl⟩

/-- Settles O29: the record is the form's, its memory operand the resolver's direct address. -/
theorem directAddressForm : Obligations.DirectAddressForm := by
  intro s t b0 b1 hr hb hc hmod hrm h ht
  obtain ⟨hfit, rfl⟩ := step_of_rm_emits hr hb hc h ht
  rw [hmod, hrm, trail_direct] at hfit ⊢
  refine ⟨_, _, State.readByte?_of_lt (by omega), State.readByte?_of_lt (by omega), rfl, ?_⟩
  rw [State.emit_out, State.rmRecord, s.rmOperand_direct b0 hmod hrm]
  rfl

end Sys2Proof.Machine

/-! The statements of 42_mov_imm_reg.md (R111, R112): the template of the instructions, at the RI form's bytes and operands. -/

namespace Sys2Proof.Machine

/-- Settles O24: the template, at R111's bytes and operands. -/
theorem movImm8ToRegEmitsOrTruncates : Obligations.MovImm8ToRegEmitsOrTruncates :=
  fun _ _ => movRule_of_exec rfl rfl rfl fun _ => rfl

/-- Settles O25: the template, at R112's bytes and operands; the immediate's low byte comes first (R35). -/
theorem movImm16ToRegEmitsOrTruncates : Obligations.MovImm16ToRegEmitsOrTruncates :=
  fun _ lo hi => movRule_of_exec rfl rfl (by rw [encode, wordBytes_append lo hi]; rfl) fun _ => rfl

end Sys2Proof.Machine

/-! SUPPORT and the statements of 43_renderer.md: the decimal numeral is the library's, the text of each kind of operand with
its characters and its width, and the line (R17, R120 to R132). -/

namespace Sys2Proof.Machine

/-! Lines (R120, R131). -/

@[simp] theorem State.lines_finish (s : State) : s.finish.lines = s.lines := rfl

@[simp] theorem State.lines_fail (s : State) (k : FailureKind) : (s.fail k).lines = s.lines := rfl

@[simp] theorem State.lines_emit_mov (s : State) (dst src : Operand) (n : Nat) :
    (s.emit (.mov dst src) n).lines = s.lines ++ [renderMov s.cfg dst src] := by
  simp [State.lines, renderEntry]

/-- R131: a marker has no rendering. -/
@[simp] theorem State.lines_emit_unsupported (s : State) (off n : Nat) :
    (s.emit (.unsupported off) n).lines = s.lines := by
  simp [State.lines, renderEntry]

/-- Settles O56: by the three things a step can do, and the two kinds of entry it can emit. -/
theorem linesGrowWithMovesOnly : Obligations.LinesGrowWithMovesOnly := by
  intro s t h
  rcases step_next h with ⟨-, rfl⟩ | ⟨-, k, -, rfl⟩ | ⟨-, e, n, -, rfl⟩
  · exact .inr (.inr ⟨rfl, s.lines_finish⟩)
  · exact .inr (.inr ⟨rfl, s.lines_fail k⟩)
  · cases e with
    | mov dst src => exact .inl ⟨dst, src, rfl, s.lines_emit_mov dst src n⟩
    | unsupported off => exact .inr (.inl ⟨⟨off, rfl⟩, s.lines_emit_unsupported off n⟩)

/-! Each kind of operand (R121 to R125). -/

variable {cfg : Cfg}

theorem renderOperand_some_elided {v : Int} (h : cfg.elideZeroDisp = true ∧ v = 0) (rm : Sel) :
    renderOperand cfg (.effectiveAddress rm (some v)) = bracketed (equationText rm) := if_pos h

theorem renderOperand_some_shown {v : Int} (h : ¬(cfg.elideZeroDisp = true ∧ v = 0)) (rm : Sel) :
    renderOperand cfg (.effectiveAddress rm (some v)) = bracketed (equationText rm ++ [' ', '+', ' '] ++ dec v) := if_neg h

/-- Settles O52: the table by evaluation; the template and the operands are the renderer's equations, where the displacement's
depend on elision. -/
theorem operandText : Obligations.OperandText := by
  refine ⟨by decide, fun cfg => ⟨fun _ _ => rfl, fun _ => rfl, fun _ => rfl, fun _ => rfl, fun _ => rfl,
    fun rm _ h => renderOperand_some_elided h rm, fun rm _ h => ?_⟩⟩
  rw [renderOperand_some_shown h]
  simp [bracketed]

/-! The decimal numeral (R127): the model's digits are those of the library's `Nat.toDigits 10`. -/

theorem digitChar_eq_digitChar_mod (d : Nat) : digitChar d = Nat.digitChar (d % 10) := by
  have hdigits : ∀ r < 10, Char.ofNat (48 + r) = Nat.digitChar r := by decide
  exact hdigits _ (Nat.mod_lt d (by decide))

theorem decDigits_eq_toDigits_append {fuel n : Nat} (h : n < fuel) (acc : List Char) :
    decDigits fuel n acc = Nat.toDigits 10 n ++ acc := by
  induction fuel generalizing n acc with
  | zero => exact absurd h (Nat.not_lt_zero n)
  | succ fuel ih =>
    rw [decDigits, digitChar_eq_digitChar_mod]
    split
    · next hlt => rw [Nat.toDigits_of_lt_base hlt, Nat.mod_eq_of_lt hlt, List.singleton_append]
    · next hge =>
      rw [ih (by omega), Nat.toDigits_of_base_le (by decide) (Nat.le_of_not_lt hge), List.append_assoc,
        List.singleton_append]

theorem decNat_eq_toDigits (n : Nat) : decNat n = Nat.toDigits 10 n := by
  rw [decNat, decDigits_eq_toDigits_append n.lt_succ_self, List.append_nil]

theorem dec_natCast (n : Nat) : dec (n : Int) = Nat.toDigits 10 n := by
  rw [dec, if_neg (by omega), Int.natAbs_natCast, decNat_eq_toDigits]

theorem dec_neg_natCast {n : Nat} (h : 0 < n) : dec (-(n : Int)) = '-' :: Nat.toDigits 10 n := by
  rw [dec, if_pos (by omega), Int.natAbs_neg, Int.natAbs_natCast, decNat_eq_toDigits]

/-- R127's two cases: a natural number, or a negative one. -/
theorem eq_natCast_or_neg (v : Int) : (∃ n : Nat, v = n) ∨ ∃ n : Nat, 0 < n ∧ v = -(n : Int) := by
  rcases lt_or_ge v 0 with h | h
  · exact .inr ⟨v.natAbs, by omega, by omega⟩
  · exact .inl ⟨v.natAbs, by omega⟩

theorem valueOf_toDigits (n : Nat) : valueOf (Nat.toDigits 10 n) = n :=
  Nat.ofDigitChars_ten_toDigits

/-- The first digit of a positive number is that of its tenth part, down to a single digit. -/
theorem toDigits_head_ne_zero {n : Nat} (h : 0 < n) : ∃ c cs, Nat.toDigits 10 n = c :: cs ∧ c ≠ '0' := by
  induction n using Nat.strongRecOn with
  | ind n ih =>
    rcases Nat.lt_or_ge n 10 with hlt | hge
    · refine ⟨_, [], Nat.toDigits_of_lt_base hlt, ?_⟩
      simpa using h.ne'
    · obtain ⟨c, cs, hdigits, hc⟩ := ih (n / 10) (by omega) (by omega)
      refine ⟨c, cs ++ [Nat.digitChar (n % 10)], ?_, hc⟩
      rw [Nat.toDigits_of_base_le (by decide) hge, hdigits, List.cons_append]

theorem isUnsigned_toDigits (n : Nat) : IsUnsigned (Nat.toDigits 10 n) := by
  rcases n.eq_zero_or_pos with rfl | hpos
  · exact .inl (Nat.toDigits_zero 10)
  · obtain ⟨c, cs, hdigits, hc⟩ := toDigits_head_ne_zero hpos
    exact .inr ⟨c, cs, hdigits, hc, fun x hx => Nat.isDigit_of_mem_toDigits (by decide) (by decide) hx⟩

/-- Settles O53: the numeral is the library's, whose digits spell the number and whose first digit is not 0. -/
theorem decimalIsShortestNumeral : Obligations.DecimalIsShortestNumeral := by
  refine ⟨fun n => ?_, fun n hpos => ?_⟩
  · rw [dec_natCast]
    exact ⟨valueOf_toDigits n, isUnsigned_toDigits n⟩
  · rw [dec_natCast, dec_neg_natCast hpos]

theorem dec_ne_nil (v : Int) : dec v ≠ [] := by
  rcases eq_natCast_or_neg v with ⟨n, rfl⟩ | ⟨n, hpos, rfl⟩
  · rw [dec_natCast]; exact Nat.toDigits_ne_nil
  · rw [dec_neg_natCast hpos]; exact List.cons_ne_nil _ _

/-- The characters of a digit string lie from "0" (48) to "9" (57). -/
theorem toNat_of_mem_toDigits {c : Char} {n : Nat} (h : c ∈ Nat.toDigits 10 n) : 48 ≤ c.toNat ∧ c.toNat ≤ 57 :=
  Char.isDigit_iff_toNat.mp (Nat.isDigit_of_mem_toDigits (by decide) (by decide) h)

/-- The characters of a numeral lie from "-" (45) to "9" (57). -/
theorem toNat_of_mem_dec {c : Char} {v : Int} (h : c ∈ dec v) : 45 ≤ c.toNat ∧ c.toNat ≤ 57 := by
  rcases eq_natCast_or_neg v with ⟨n, rfl⟩ | ⟨n, hpos, rfl⟩
  · rw [dec_natCast] at h
    have := toNat_of_mem_toDigits h
    omega
  · rw [dec_neg_natCast hpos] at h
    rcases List.mem_cons.mp h with rfl | h
    · decide
    · have := toNat_of_mem_toDigits h
      omega

theorem toDigits_injective : Function.Injective (Nat.toDigits 10) :=
  Function.LeftInverse.injective valueOf_toDigits

/-- A digit string never starts with a minus sign. -/
theorem toDigits_ne_minus_cons (n : Nat) (t : List Char) : Nat.toDigits 10 n ≠ '-' :: t := by
  intro h
  have hminus : '-' ∈ Nat.toDigits 10 n := h ▸ List.mem_cons_self
  exact absurd (toNat_of_mem_toDigits hminus).1 (by decide)

theorem dec_injective : Function.Injective dec := by
  intro v v' h
  rcases eq_natCast_or_neg v with ⟨n, rfl⟩ | ⟨n, hpos, rfl⟩ <;>
    rcases eq_natCast_or_neg v' with ⟨n', rfl⟩ | ⟨n', hpos', rfl⟩
  · rw [dec_natCast, dec_natCast] at h
    rw [toDigits_injective h]
  · rw [dec_natCast, dec_neg_natCast hpos'] at h
    exact absurd h (toDigits_ne_minus_cons _ _)
  · rw [dec_natCast, dec_neg_natCast hpos] at h
    exact absurd h.symm (toDigits_ne_minus_cons _ _)
  · rw [dec_neg_natCast hpos, dec_neg_natCast hpos'] at h
    rw [toDigits_injective (List.tail_eq_of_cons_eq h)]

/-! The grammar (R128). -/

theorem isReg_text (name : RegName) : IsReg name.text := by
  unfold IsReg
  cases name <;> decide

theorem isEquation_equationText (rm : Sel) : IsEquation (equationText rm) := by
  unfold IsEquation
  revert rm; decide

theorem literalInRange_natCast {n : Nat} (h : literalInRange cfg n) : n ≤ 65535 := by
  unfold literalInRange at h
  split at h <;> omega

theorem literalInRange_neg {n : Nat} (hpos : 0 < n) (h : literalInRange cfg (-(n : Int))) :
    cfg.signedLiterals = true ∧ n ≤ 32768 := by
  unfold literalInRange at h
  split at h
  · next hsigned => exact ⟨hsigned, by omega⟩
  · omega

theorem isNumber_dec {v : Int} (h : literalInRange cfg v) : IsNumber cfg (dec v) := by
  rcases eq_natCast_or_neg v with ⟨n, rfl⟩ | ⟨n, hpos, rfl⟩
  · rw [dec_natCast]
    exact .inl ⟨isUnsigned_toDigits n, (valueOf_toDigits n).trans_le (literalInRange_natCast h)⟩
  · obtain ⟨hsigned, hle⟩ := literalInRange_neg hpos h
    exact .inr ⟨hsigned, _, dec_neg_natCast hpos, isUnsigned_toDigits n, (valueOf_toDigits n).trans_le hle⟩

theorem isMem_renderOperand {o : Operand} (h : o.LegalMem cfg) : IsMem cfg (renderOperand cfg o) := by
  cases o with
  | register _ | immediate _ => exact h.elim
  | directAddress a =>
    have hvalue : valueOf (Nat.toDigits 10 a.toNat) ≤ 65535 :=
      (valueOf_toDigits a.toNat).trans_le (Nat.le_of_lt_succ a.isLt)
    refine .inl ⟨Nat.toDigits 10 a.toNat, ?_, isUnsigned_toDigits _, hvalue⟩
    rw [renderOperand, dec_natCast]
    rfl
  | effectiveAddress rm d =>
    right
    cases d with
    | none => exact .inl ⟨_, rfl, isEquation_equationText rm⟩
    | some v =>
      by_cases helide : cfg.elideZeroDisp = true ∧ v = 0
      · rw [renderOperand_some_elided helide]
        exact .inl ⟨_, rfl, isEquation_equationText rm⟩
      · rw [renderOperand_some_shown helide]
        exact .inr ⟨_, _, by simp [bracketed], isEquation_equationText rm, isNumber_dec h⟩

/-- R22: the operand pairs of a legal record. -/
theorem Entry.Legal.operand_pairs {dst src : Operand} (h : (Entry.mov dst src).Legal cfg) :
    (∃ r, dst = .register r ∧
      ((∃ r', src = .register r') ∨ (∃ v, src = .immediate v ∧ literalInRange cfg v) ∨ src.LegalMem cfg)) ∨
    (dst.LegalMem cfg ∧ ∃ r, src = .register r) := by
  cases dst with
  | register r =>
    refine .inl ⟨r, rfl, ?_⟩
    cases src with
    | register r' => exact .inl ⟨r', rfl⟩
    | immediate v => exact .inr (.inl ⟨v, rfl, h⟩)
    | _ => exact .inr (.inr h)
  | _ =>
    cases src with
    | register r => exact .inr ⟨h, r, rfl⟩
    | _ => exact h.elim

theorem isLine_renderMov {dst src : Operand} (h : (Entry.mov dst src).Legal cfg) : IsLine cfg (renderMov cfg dst src) := by
  refine ⟨_, _, rfl, ?_⟩
  rcases h.operand_pairs with ⟨r, rfl, ⟨r', rfl⟩ | ⟨v, rfl, hv⟩ | hmem⟩ | ⟨hmem, r, rfl⟩
  · exact .inl ⟨isReg_text r, .inl (isReg_text r')⟩
  · exact .inl ⟨isReg_text r, .inr (.inl (isNumber_dec hv))⟩
  · exact .inl ⟨isReg_text r, .inr (.inr (isMem_renderOperand hmem))⟩
  · exact .inr ⟨isMem_renderOperand hmem, isReg_text r⟩

/-! Widths (R128). -/

/-- The width of the widest literal: "-32768" in signed mode, "65535" in unsigned mode. -/
def numeralWidth (cfg : Cfg) : Nat := if cfg.signedLiterals then 6 else 5

theorem five_le_numeralWidth (cfg : Cfg) : 5 ≤ numeralWidth cfg := by
  unfold numeralWidth
  split <;> decide

theorem length_toDigits_le_five {n : Nat} (h : n ≤ 65535) : (Nat.toDigits 10 n).length ≤ 5 :=
  (Nat.length_toDigits_le_iff (by decide) (by decide)).mpr (by omega)

theorem length_dec_le {v : Int} (h : literalInRange cfg v) : (dec v).length ≤ numeralWidth cfg := by
  rcases eq_natCast_or_neg v with ⟨n, rfl⟩ | ⟨n, hpos, rfl⟩
  · rw [dec_natCast]
    exact (length_toDigits_le_five (literalInRange_natCast h)).trans (five_le_numeralWidth cfg)
  · obtain ⟨hsigned, hle⟩ := literalInRange_neg hpos h
    rw [dec_neg_natCast hpos, numeralWidth, if_pos hsigned]
    exact Nat.succ_le_succ (length_toDigits_le_five (by omega))

theorem length_dec_pos (v : Int) : 0 < (dec v).length := List.length_pos_of_ne_nil (dec_ne_nil v)

theorem length_text (name : RegName) : name.text.length = 2 := by cases name <;> rfl

theorem length_equationText (rm : Sel) : 2 ≤ (equationText rm).length ∧ (equationText rm).length ≤ 7 := by
  revert rm; decide

theorem length_bracketed (t : List Char) : (bracketed t).length = t.length + 2 := by simp [bracketed]

/-- The widest memory operand is a two-register equation with the widest displacement. -/
theorem length_renderOperand_mem {o : Operand} (h : o.LegalMem cfg) :
    3 ≤ (renderOperand cfg o).length ∧ (renderOperand cfg o).length ≤ 12 + numeralWidth cfg := by
  have hwidth := five_le_numeralWidth cfg
  cases o with
  | register _ | immediate _ => exact h.elim
  | directAddress a =>
    have hpos := length_dec_pos a.toNat
    have hle : (dec a.toNat).length ≤ 5 := by
      rw [dec_natCast]; exact length_toDigits_le_five (Nat.le_of_lt_succ a.isLt)
    rw [renderOperand, length_bracketed]
    omega
  | effectiveAddress rm d =>
    obtain ⟨hmin, hmax⟩ := length_equationText rm
    cases d with
    | none =>
      rw [renderOperand, length_bracketed]
      omega
    | some v =>
      have hdec := length_dec_le h
      rw [renderOperand]
      split
      · rw [length_bracketed]
        omega
      · rw [length_bracketed, List.length_append, List.length_append, List.length_cons, List.length_cons,
          List.length_singleton]
        omega

theorem length_renderMov (dst src : Operand) :
    (renderMov cfg dst src).length = (renderOperand cfg dst).length + (renderOperand cfg src).length + 6 := by
  simp only [renderMov, List.length_append, List.length_cons, List.length_nil]
  omega

theorem length_line_bounds {dst src : Operand} (h : (Entry.mov dst src).Legal cfg) :
    9 ≤ (renderMov cfg dst src).length ∧ (renderMov cfg dst src).length ≤ 20 + numeralWidth cfg := by
  have hreg (r : RegName) : (renderOperand cfg (.register r)).length = 2 := length_text r
  rw [length_renderMov]
  rcases h.operand_pairs with ⟨r, rfl, ⟨r', rfl⟩ | ⟨v, rfl, hv⟩ | hmem⟩ | ⟨hmem, r, rfl⟩
  · rw [hreg, hreg]
    omega
  · have hpos := length_dec_pos v
    have hle := length_dec_le hv
    rw [hreg, renderOperand]
    omega
  · have hlen := length_renderOperand_mem hmem
    rw [hreg]
    omega
  · have hlen := length_renderOperand_mem hmem
    rw [hreg]
    omega

/-! The characters of an operand: ASCII (R128), and never the comma that ends the destination (R120). -/

/-- 7-bit ASCII, and not the comma. -/
def isOperandChar (c : Char) : Bool := c.toNat < 128 && c ≠ ','

theorem isOperandChar_iff (c : Char) : isOperandChar c = true ↔ c.toNat < 128 ∧ c ≠ ',' := by simp [isOperandChar]

theorem all_isOperandChar_dec (v : Int) : (dec v).all isOperandChar = true := by
  refine List.all_eq_true.mpr fun c hc => (isOperandChar_iff c).mpr ?_
  obtain ⟨hmin, hmax⟩ := toNat_of_mem_dec hc
  refine ⟨by omega, ?_⟩
  rintro rfl
  exact absurd hmin (by decide)

theorem all_isOperandChar_text (name : RegName) : name.text.all isOperandChar = true := by
  cases name <;> rfl

theorem all_isOperandChar_equationText (rm : Sel) : (equationText rm).all isOperandChar = true := by
  revert rm; decide

theorem all_isOperandChar_bracketed {t : List Char} (h : t.all isOperandChar = true) :
    (bracketed t).all isOperandChar = true := by
  rw [bracketed, List.all_append, List.all_cons, h]
  rfl

theorem all_isOperandChar_renderOperand (o : Operand) : (renderOperand cfg o).all isOperandChar = true := by
  cases o with
  | register name => exact all_isOperandChar_text name
  | immediate v => exact all_isOperandChar_dec v
  | directAddress a => exact all_isOperandChar_bracketed (all_isOperandChar_dec _)
  | effectiveAddress rm d =>
    have hequation := all_isOperandChar_bracketed (all_isOperandChar_equationText rm)
    cases d with
    | none => exact hequation
    | some v =>
      rw [renderOperand]
      split
      · exact hequation
      · refine all_isOperandChar_bracketed ?_
        rw [List.all_append, List.all_append, all_isOperandChar_equationText, all_isOperandChar_dec]
        rfl

theorem isOperandChar_of_mem_renderOperand {o : Operand} {c : Char} (hc : c ∈ renderOperand cfg o) :
    c.toNat < 128 ∧ c ≠ ',' :=
  (isOperandChar_iff c).mp (List.all_eq_true.mp (all_isOperandChar_renderOperand o) c hc)

theorem ascii_of_mem_renderMov (dst src : Operand) : ∀ c ∈ renderMov cfg dst src, c.toNat < 128 := by
  have hoperand (o : Operand) : ∀ c ∈ renderOperand cfg o, c.toNat < 128 :=
    fun _ hc => (isOperandChar_of_mem_renderOperand hc).1
  simp only [renderMov, List.forall_mem_append]
  exact ⟨⟨⟨by simp, hoperand dst⟩, by simp⟩, hoperand src⟩

/-- Settles O54: the grammar from the operand pairs, the widths with the widest literal of each mode, and the characters. -/
theorem linesFollowGrammar : Obligations.LinesFollowGrammar := by
  intro cfg dst src h
  obtain ⟨hmin, hmax⟩ := length_line_bounds h
  refine ⟨isLine_renderMov h, hmin, ?_, fun hunsigned => ?_, ascii_of_mem_renderMov dst src⟩
  · have hwidth : numeralWidth cfg ≤ 6 := by unfold numeralWidth; split <;> decide
    omega
  · simpa [numeralWidth, hunsigned] using hmax

/-! Reading an operand back (R132). The brackets tell memory from the rest, the letters tell a register from an immediate, an
effective from a direct address, and one equation from another. -/

/-- The letters of a text ("a" is 97), without digits, signs, spaces and brackets. -/
def letters (t : List Char) : List Char := t.filter fun c => decide (97 ≤ c.toNat)

theorem letters_append (t u : List Char) : letters (t ++ u) = letters t ++ letters u := List.filter_append ..

theorem letters_bracketed (t : List Char) : letters (bracketed t) = letters t := by
  rw [bracketed, letters_append]
  exact List.append_nil _

theorem letters_dec (v : Int) : letters (dec v) = [] := by
  refine List.filter_eq_nil_iff.mpr fun c hc => ?_
  have := toNat_of_mem_dec hc
  simpa using by omega

theorem letters_text (name : RegName) : letters name.text = name.text := by cases name <;> rfl

theorem letters_equationText_ne_nil (rm : Sel) : letters (equationText rm) ≠ [] := by
  revert rm; decide

theorem letters_equationText_inj {rm rm' : Sel} (h : letters (equationText rm) = letters (equationText rm')) : rm = rm' := by
  revert rm rm'; decide

/-- R16: the names are told apart by their two letters, as `regName_text_inj` says of the table. -/
theorem RegName.text_injective : Function.Injective RegName.text := by
  have hregName (name : RegName) : ∃ w sel, regName w sel = name := by cases name <;> decide
  intro name name' h
  obtain ⟨w, sel, rfl⟩ := hregName name
  obtain ⟨w', sel', rfl⟩ := hregName name'
  obtain ⟨rfl, rfl⟩ := regName_text_inj h
  rfl

theorem bracketed_injective : Function.Injective bracketed := fun _ _ h =>
  List.append_cancel_right (List.tail_eq_of_cons_eq h)

/-- The suffix of an effective address. -/
def dispText : Option Int → List Char
  | none => []
  | some v => [' ', '+', ' '] ++ dec v

theorem dispText_injective : Function.Injective dispText := by
  intro d d' h
  match d, d' with
  | none, none => rfl
  | none, some _ => cases h
  | some _, none => cases h
  | some _, some _ => rw [dec_injective (List.append_cancel_left h)]

theorem letters_dispText (d : Option Int) : letters (dispText d) = [] := by
  cases d with
  | none => rfl
  | some v => rw [dispText, letters_append, letters_dec]; rfl

theorem renderOperand_effectiveAddress (h : cfg.elideZeroDisp = false) (rm : Sel) (d : Option Int) :
    renderOperand cfg (.effectiveAddress rm d) = bracketed (equationText rm ++ dispText d) := by
  cases d with
  | none => rw [dispText, List.append_nil]; rfl
  | some v => rw [renderOperand_some_shown (by simp [h]), dispText, List.append_assoc]

theorem letters_renderOperand_effectiveAddress (h : cfg.elideZeroDisp = false) (rm : Sel) (d : Option Int) :
    letters (renderOperand cfg (.effectiveAddress rm d)) = letters (equationText rm) := by
  rw [renderOperand_effectiveAddress h, letters_bracketed, letters_append, letters_dispText, List.append_nil]

/-- What tells an operand's kind: whether its text has brackets, and whether it has letters. -/
def textKind (t : List Char) : Bool × Bool := (t.contains '[', (letters t).isEmpty)

/-- The kind of an operand, as its text tells it. -/
def Operand.kind : Operand → Bool × Bool
  | .register _ => (false, false)
  | .immediate _ => (false, true)
  | .directAddress _ => (true, true)
  | .effectiveAddress _ _ => (true, false)

theorem contains_bracket_dec (v : Int) : (dec v).contains '[' = false := by
  rw [List.contains_eq_mem, decide_eq_false_iff_not]
  intro h
  exact absurd (toNat_of_mem_dec h).2 (by decide)

theorem contains_bracket_bracketed (t : List Char) : (bracketed t).contains '[' = true := by
  simp [bracketed]

theorem textKind_renderOperand (h : cfg.elideZeroDisp = false) (o : Operand) : textKind (renderOperand cfg o) = o.kind := by
  cases o with
  | register name => cases name <;> rfl
  | immediate v => simp only [renderOperand, textKind, contains_bracket_dec, letters_dec]; rfl
  | directAddress a =>
    simp only [renderOperand, textKind, contains_bracket_bracketed, letters_bracketed, letters_dec]; rfl
  | effectiveAddress rm d =>
    have hletters : (letters (equationText rm)).isEmpty = false := by simp [letters_equationText_ne_nil]
    rw [textKind, letters_renderOperand_effectiveAddress h, renderOperand_effectiveAddress h, contains_bracket_bracketed,
      hletters]
    rfl

/-- R132: without zero elision, operands of different kinds differ in brackets or letters, and each kind's text tells its
values. -/
theorem renderOperand_injective (h : cfg.elideZeroDisp = false) : Function.Injective (renderOperand cfg) := by
  intro o o' heq
  have hkind : o.kind = o'.kind := by rw [← textKind_renderOperand h, ← textKind_renderOperand h, heq]
  cases o with
  | register name =>
    cases o' with
    | register name' => rw [RegName.text_injective heq]
    | _ => cases hkind
  | immediate v =>
    cases o' with
    | immediate v' => rw [dec_injective heq]
    | _ => cases hkind
  | directAddress a =>
    cases o' with
    | directAddress a' => rw [BitVec.eq_of_toNat_eq (Int.ofNat.inj (dec_injective (bracketed_injective heq)))]
    | _ => cases hkind
  | effectiveAddress rm d =>
    cases o' with
    | effectiveAddress rm' d' =>
      have hletters := congrArg letters heq
      rw [letters_renderOperand_effectiveAddress h, letters_renderOperand_effectiveAddress h] at hletters
      obtain rfl := letters_equationText_inj hletters
      rw [renderOperand_effectiveAddress h, renderOperand_effectiveAddress h] at heq
      rw [dispText_injective (List.append_cancel_left (bracketed_injective heq))]
    | _ => cases hkind

/-! The whole record (R132, R124). -/

/-- The configuration that prints every displacement (R124). -/
def withoutElision (cfg : Cfg) : Cfg := { cfg with elideZeroDisp := false }

/-- What prints under elision is the printed operand, spelled in full. -/
theorem renderOperand_printed (o : Operand) : renderOperand (withoutElision cfg) (o.printed cfg) = renderOperand cfg o := by
  match o with
  | .register _ | .immediate _ | .directAddress _ | .effectiveAddress _ none => rfl
  | .effectiveAddress rm (some v) =>
    have hfull : ¬((withoutElision cfg).elideZeroDisp = true ∧ v = 0) := by simp [withoutElision]
    rw [Operand.printed]
    by_cases h : cfg.elideZeroDisp = true ∧ v = 0
    · rw [if_pos h, renderOperand_some_elided h]; rfl
    · rw [if_neg h, renderOperand_some_shown h, renderOperand_some_shown hfull]

theorem printed_eq_self (h : cfg.elideZeroDisp = false) (o : Operand) : o.printed cfg = o := by
  match o with
  | .register _ | .immediate _ | .directAddress _ | .effectiveAddress _ none => rfl
  | .effectiveAddress _ (some _) => simp [Operand.printed, h]

theorem printed_eq_of_renderOperand_eq {o o' : Operand} (h : renderOperand cfg o = renderOperand cfg o') :
    o.printed cfg = o'.printed cfg := by
  rw [← renderOperand_printed, ← renderOperand_printed o'] at h
  exact renderOperand_injective rfl h

/-- The destination's text is what stands before the first comma. -/
theorem takeWhile_renderOperand (o : Operand) (rest : List Char) :
    (renderOperand cfg o ++ ',' :: rest).takeWhile (· ≠ ',') = renderOperand cfg o := by
  have hcomma : ∀ c ∈ renderOperand cfg o, decide (c ≠ ',') = true :=
    fun _ hc => decide_eq_true (isOperandChar_of_mem_renderOperand hc).2
  rw [List.takeWhile_append_of_pos hcomma]
  simp

theorem renderMov_inj {dst src dst' src' : Operand} (h : renderMov cfg dst src = renderMov cfg dst' src') :
    renderOperand cfg dst = renderOperand cfg dst' ∧ renderOperand cfg src = renderOperand cfg src' := by
  simp only [renderMov, List.append_assoc] at h
  have htail := List.append_cancel_left h
  have hdst := congrArg (List.takeWhile (· ≠ ',')) htail
  simp only [List.cons_append, takeWhile_renderOperand] at hdst
  rw [hdst] at htail
  exact ⟨hdst, List.append_cancel_left (List.append_cancel_left htail)⟩

/-- Settles O55: the line tells its two operands' texts, and each text the printed operand. -/
theorem renderIsInjective : Obligations.RenderIsInjective := by
  intro cfg dst src dst' src' h
  obtain ⟨hdst, hsrc⟩ := renderMov_inj h
  have hdst := printed_eq_of_renderOperand_eq hdst
  have hsrc := printed_eq_of_renderOperand_eq hsrc
  refine ⟨hdst, hsrc, fun hfull => ?_⟩
  rw [printed_eq_self hfull, printed_eq_self hfull] at hdst hsrc
  exact ⟨hdst, hsrc⟩

end Sys2Proof.Machine

/-! SUPPORT and the statements of 60_exceptions.md: when the decoder rejects bytes as truncated (R140, R144), and what a failing
step records (R143, R145). -/

namespace Sys2Proof.Machine

/-! Truncation, form by form. -/

/-- R90, R140: an RM instruction's trailing bytes are missing or there to be decoded. -/
theorem decode_of_rm_eq_truncated_iff {b0 : Byte} (h : classify b0 = .rm) (b1 : Byte) (rest : List Byte) :
    decode (b0 :: b1 :: rest) = .truncated ↔ rest.length < trail (modField b1) (rmField b1) := by
  constructor
  · intro htr
    by_contra hpresent
    obtain ⟨i, rest', hwf, hbytes⟩ := exists_encode_of_rm h b1 (Nat.le_of_not_lt hpresent)
    rw [hbytes, decode_encode_append hwf] at htr
    cases htr
  · intro hmissing
    rw [decode_of_rm h, decodeRm_of_missing hmissing]

/-- R110, R140: the width bit says how many bytes the immediate has. -/
theorem decodeRi_eq_truncated_iff (b0 : Byte) (rest : List Byte) :
    decodeRi b0 rest = .truncated ↔ rest.length < if wBitRi b0 then 2 else 1 := by
  unfold decodeRi
  cases wBitRi b0 with
  | false =>
    match rest with
    | [] => simp
    | _ :: _ => simp
  | true =>
    match rest with
    | [] | [_] => simp
    | _ :: _ :: _ => simp

/-- Settles O10: no byte at all is not truncated, and neither is an unsupported one; each recognised form by its own count of
missing bytes. -/
theorem truncatedExactlyWhenBytesMissing : Obligations.TruncatedExactlyWhenBytesMissing := by
  intro bytes
  match bytes with
  | [] => simp [decode]
  | b0 :: rest =>
    cases hc : classify b0 with
    | unsupported => simp [decode_of_unsupported hc, hc]
    | ri => simp [decode_of_ri hc, decodeRi_eq_truncated_iff, hc]
    | rm =>
      match rest with
      | [] => simp [decode_of_rm_single hc, hc]
      | b1 :: rest => simp [decode_of_rm_eq_truncated_iff hc, hc]

/-! What the pseudocode's arm raises. -/

/-- R57: at most two bytes follow the ModRM byte. -/
theorem trailRaw_le_two (md rm : Nat) : trailRaw md rm ≤ 2 := by
  unfold trailRaw
  split_ifs <;> decide

theorem refDecodeRm_raises {s : State} {a b0 : Nat} {k : FailureKind} (h : refDecodeRm s a b0 = .raises k) :
    k = .truncatedInput ∧ s.len < a + 4 := by
  simp only [refDecodeRm] at h
  split at h
  · cases h
    exact ⟨rfl, by omega⟩
  · split at h
    · next hshort =>
      cases h
      have htrail := trailRaw_le_two (bitsOf (memRead1 s (a + 1)) 7 6) (bitsOf (memRead1 s (a + 1)) 2 0)
      exact ⟨rfl, by omega⟩
    · cases h

theorem refDecodeRi_raises {s : State} {a b0 : Nat} {k : FailureKind} (h : refDecodeRi s a b0 = .raises k) :
    k = .truncatedInput ∧ s.len < a + 4 := by
  by_cases hshort : a + (if bitsOf b0 3 3 = 0 then 2 else 3) > s.len
  · rw [refDecodeRi, if_pos hshort] at h
    cases h
    exact ⟨rfl, by split at hshort <;> omega⟩
  · rw [refDecodeRi, if_neg hshort] at h
    cases h

/-- R83, R140: the two failures, told apart by whether the first byte is recognised. -/
theorem refArm_raises {s : State} {a : Nat} {k : FailureKind} (h : refArm s a = .raises k) :
    (k = .unsupportedOpcode ∧ classify (Memory.read s.mem a) = .unsupported ∧ s.cfg.policy = .abort) ∨
    (k = .truncatedInput ∧ classify (Memory.read s.mem a) ≠ .unsupported ∧ s.len < a + 4) := by
  cases hc : classify (Memory.read s.mem a) with
  | rm =>
    rw [refArm_of_rm hc] at h
    obtain ⟨hk, hlen⟩ := refDecodeRm_raises h
    exact .inr ⟨hk, by decide, hlen⟩
  | ri =>
    rw [refArm_of_ri hc] at h
    obtain ⟨hk, hlen⟩ := refDecodeRi_raises h
    exact .inr ⟨hk, by decide, hlen⟩
  | unsupported =>
    rw [refArm_of_unsupported hc] at h
    split at h
    · next habort =>
      cases h
      exact .inl ⟨rfl, rfl, habort⟩
    · cases h

/-- A step that fails raised at the cursor, below the end of the buffer, what the pseudocode's arm raises there. -/
theorem step_failed {s t : State} {k : FailureKind} {off : Nat} (h : step s = .next t) (ht : t.status = .failed k off) :
    off = s.pos ∧ s.pos < s.len ∧ refArm s s.pos = .raises k ∧ t = s.fail k := by
  rcases step_next h with ⟨-, rfl⟩ | ⟨hlt, k', harm, rfl⟩ | ⟨-, e, n, -, rfl⟩
  · cases ht
  · cases ht
    exact ⟨rfl, hlt, harm, rfl⟩
  · rw [State.emit_status, running_of_step_next h] at ht
    cases ht

/-- Settles O38: the failure is the pseudocode's at the cursor, whose kind says whether the byte there was recognised. -/
theorem failuresArePrecise : Obligations.FailuresArePrecise := by
  intro s t k off _ h ht
  obtain ⟨rfl, hlt, harm, rfl⟩ := step_failed h ht
  refine ⟨rfl, rfl, _, State.readByte?_of_lt hlt, ?_⟩
  rcases refArm_raises harm with ⟨rfl, hbyte⟩ | ⟨rfl, hbyte⟩
  · exact ⟨fun _ => hbyte, nofun⟩
  · exact ⟨nofun, fun _ => hbyte⟩

end Sys2Proof.Machine

/-! SUPPORT and the statement of 70_reset_and_hazards.md: what reset sets and latches (R28, R160). -/

namespace Sys2Proof.Machine

/-- R30: no offset exists from LEN on. -/
theorem State.readByte?_of_len_le {s : State} {a : Nat} (h : s.len ≤ a) : s.readByte? a = none :=
  if_neg (Nat.not_lt.mpr h)

/-- R160: below their number the presented bytes are read where they were placed, from offset 0; beyond it there is no byte. -/
theorem State.readByte?_start (bytes : List Byte) (cfg : Cfg) (a : Nat) :
    (State.start bytes cfg).readByte? a = bytes[a]? := by
  rcases Nat.lt_or_ge a bytes.length with hlt | hge
  · have hread : Memory.read (Memory.ofBytesFrom 0 bytes) a = bytes[a] := by
      simpa using Memory.read_ofBytesFrom (k := 0) hlt
    rw [State.readByte?_of_lt hlt, List.getElem?_eq_getElem hlt, State.start_mem, hread]
  · rw [State.readByte?_of_len_le hge, List.getElem?_eq_none hge]

/-- Settles O43: the fields are those of `State.start`, and its buffer reads as the presented bytes. -/
theorem resetLatchesInputs : Obligations.ResetLatchesInputs := by
  intro bytes cfg
  exact ⟨State.start_pos bytes cfg, State.start_out bytes cfg, State.start_status bytes cfg, State.start_len bytes cfg,
    State.start_cfg bytes cfg, State.readByte?_start bytes cfg⟩

end Sys2Proof.Machine

/-! SUPPORT and the statement of 95_test_vectors.md part 1: the worked byte sequences. -/

namespace Sys2Proof.Machine

/-- R51: bytes that spell a well-formed instruction are decoded as it, and none is left. -/
theorem decode_of_encode_eq {i : Instr} {bytes : List Byte} (hwf : i.wf = true) (h : encode i = bytes) :
    decode bytes = .instr i [] := by
  simpa [h] using decode_encode_append hwf []

/-- Settles O3: thirteen of the sequences are the encodings of the named instructions; the last is an RM instruction with
a direct address (R57) and one of its two trailing bytes. -/
theorem specWordsDecode : Obligations.SpecWordsDecode := by
  have htruncated : decode [0x8B#8, 0x1E#8, 0x00#8] = .truncated :=
    (decode_of_rm_eq_truncated_iff (by decide) _ _).mpr (by decide)
  refine ⟨?_, ?_, ?_, ?_, ?_, ?_, ?_, ?_, ?_, ?_, ?_, ?_, ?_, htruncated⟩
  all_goals exact decode_of_encode_eq (by decide) (by decide)

end Sys2Proof.Machine
